-- ==== Sys2Proof/Word.lean ====
section
/-! DEFINITION. The word types of the block: everything stored or carried is at most 8 bits wide (R5, R27); a
command word is 10 bits (R39). -/
namespace Sys2Proof

/-- An 8-bit value: the Generator State, the holding register, an operand, a result (`W` = 8, R5). -/
abbrev Byte := BitVec 8

/-- A command word (`CMD_W` = 10, R5, R39). -/
abbrev CmdWord := BitVec 10

/-- The response of a command (R9, R41): `none` for SEED, otherwise an 8-bit value. -/
abbrev Response := Option Byte

end Sys2Proof
end

