-- ==== Sys2Proof/Machine/Bits.lean ====
section
/-! DEFINITION. The bit operations of R6: shifts within 8 bits, zero and sign extension, two's complement. -/
namespace Sys2Proof.Machine

/-- `shl8(v, k)`: the 8-bit logical left shift, zeros enter at bit 0 (R6). -/
def shl8 (v : Byte) (k : Nat) : Byte := v <<< k

/-- `shr8(v, k)`: the 8-bit logical right shift, zeros enter at bit 7 (R6). -/
def shr8 (v : Byte) (k : Nat) : Byte := v >>> k

/-- `zext_8(b)` of one bit (R6, R60). -/
def zext8 (b : Bool) : Byte := (BitVec.ofBool b).setWidth 8

/-- `sext_k(v)`: the low `k` bits of `v`, with bits 7 down to `k` all equal to bit `k - 1` (R6). -/
def sext8 (k : Nat) (v : Byte) : Byte := (v.setWidth k).signExtend 8

/-- `signed8(v)`: the integer an 8-bit pattern stands for in two's complement (R6). -/
def signed8 (v : Byte) : Int := v.toInt

end Sys2Proof.Machine
end

