-- ==== Sys2Proof/Config.lean ====
section
/-! DEFINITION. The parameters of the block in one record (R5), the values this hardware takes, and what the spec
leaves open: the default seed (U3), the response port at the completion of SEED (U4) and the latency (U10). -/
namespace Sys2Proof

/-- `PULL_ORDER` (R5, U7): which end of the holding register a bit is pulled from. -/
inductive PullOrder where
  | lsbFirst
  | msbFirst
deriving DecidableEq, Repr

/-- `SIGN_POSITION` (R5): which of the `n + 1` bits pulled by SBITS is the sign. -/
inductive SignPosition where
  | firstPulled
  | lastPulled
deriving DecidableEq, Repr

/-- The configuration record of R5, a field for each row of its table, in its order. The machine runs `Config.hw`; the
other values of the two switches are the alternatives that decisions D3 and D4 describe (log 9). The three widths are
also the types' own: `Config.wf` holds the record to them. -/
structure Config where
  /-- `W`, the width of the Generator State, of the holding register, of an operand and of a result: that of `Byte`. -/
  w : Nat
  /-- `CNT_W`, the width of the count register, which holds 0 to 8. -/
  cntW : Nat
  /-- `UMAX`, the largest valid `n` of UBITS. -/
  umax : Nat
  /-- `SMAX`, the largest valid `n` of SBITS. -/
  smax : Nat
  /-- `SH_A`, the first (left) shift distance of the transform. -/
  shA : Nat
  /-- `SH_B`, the second (right) shift distance. -/
  shB : Nat
  /-- `SH_C`, the third (left) shift distance. -/
  shC : Nat
  /-- `DEFAULT_SEED`, the Generator State after reset. -/
  defaultSeed : Byte
  /-- `PULL_ORDER`. -/
  pullOrder : PullOrder
  /-- `SIGN_POSITION`. -/
  signPosition : SignPosition
  /-- `RESET_CNT`. -/
  resetCnt : Fin 9
  /-- `RESET_BUF`. -/
  resetBuf : Byte
  /-- `CMD_W`, the width of a command word: that of `CmdWord`. -/
  cmdW : Nat
  /-- The latency of a command in clock cycles: unobservable, no rule reads it (D13, U10; log 12). -/
  latency : Nat
deriving DecidableEq, Repr

/-- FREE VALUE (log 3): which of the 255 non-zero bytes `DEFAULT_SEED` is. No source gives it (U3, D2), so no proof
can see it. -/
opaque Config.defaultSeedIndex : Fin 255

/-- `DEFAULT_SEED` (R5, U3): any byte but zero. The value is open; that it is not zero is the spec's constraint and
holds by construction, since it is the free index plus one. -/
def Config.hwDefaultSeed : Byte :=
  ⟨⟨Config.defaultSeedIndex.val + 1, Nat.succ_lt_succ Config.defaultSeedIndex.isLt⟩⟩

/-- FREE VALUE (log 12): the latency, which the spec leaves open (D13, U10). -/
opaque Config.freeLatency : Nat

/-- The hardware's configuration (R5; decisions D1 to D5, D7, D13). -/
def Config.hw : Config where
  w := 8
  cntW := 4
  umax := 8
  smax := 7
  shA := 7
  shB := 5
  shC := 3
  defaultSeed := Config.hwDefaultSeed
  pullOrder := .lsbFirst
  signPosition := .firstPulled
  resetCnt := 0
  resetBuf := 0x00#8
  cmdW := 10
  latency := Config.freeLatency

/-- FREE VALUE (log 10): the bits of `rsp_data` when the `i`-th response of a run is SEED's (U4: any value, and not
the same value twice). -/
opaque Config.freeRspData : Nat → Byte

end Sys2Proof
end

