-- ==== Sys2Proof/Machine/Flags.lean ====
section
/-! DEFINITION. The block has no flags, condition codes or predicates (R20). The one condition a command computes is
the one error class, "invalid bit-width request" (R74), which sets nothing and is recorded nowhere (R75). -/
namespace Sys2Proof.Machine

/-- An invalid bit-width request: `n` outside 1 to `max`, an unsigned comparison of the 8-bit operand (R56(d), R66,
R70, R74). -/
def invalidWidth (max : Nat) (n : Byte) : Bool := n.toNat < 1 || max < n.toNat

end Sys2Proof.Machine
end

