-- ==== Sys2Proof/Machine/Operands.lean ====
section
/-! DEFINITION. How a command reads its operand and forms its result: the one operand form is the 8-bit unsigned
field (R40); the results are the unsigned field (R64) and the signed field (R67). -/
namespace Sys2Proof.Machine

/-- The bit count `n` an operand stands for, unsigned: 0xFF is 255, not -1 (R40). -/
def bitCount (n : Byte) : Nat := n.toNat

/-- UBITS returns the field as it is, zero-extended (R64). -/
def unsignedResult (field : Byte) : Byte := field

/-- SBITS reads the `n + 1` pulled bits as an `(n+1)`-bit two's-complement number (R67). With the sign pulled first the
field is already that number; with the sign pulled last (the alternative of D4) the last bit pulled moves above the
`n` value bits. -/
def signedResult (c : Config) (n : Nat) (field : Byte) : Byte :=
  match c.signPosition with
  | .firstPulled => sext8 (n + 1) field
  | .lastPulled => sext8 (n + 1) (shl8 (field &&& 1#8) n ||| shr8 field 1)

end Sys2Proof.Machine
end

