-- ==== Sys2Proof/Machine/State.lean ====
section
/-! DEFINITION. The state of the block, `(S, BUF, CNT)` (R16), and around it what a run needs that is not state of
the block: the host's remaining events and the responses so far (R10). The reasons a step can stop. -/
namespace Sys2Proof.Machine

/-- The complete state of the block (R16). `BUF`'s low `CNT` bits are valid (R14). -/
structure Block where
  /-- The Generator State, 8 bits (R13). -/
  S : Byte
  /-- The holding register of the Bit Buffer, 8 bits (R14). -/
  BUF : Byte
  /-- The count of valid bits in `BUF`: a 4-bit register whose legal values are 0 to 8 (R15; log 6). -/
  CNT : Fin 9
deriving DecidableEq, Repr

/-- What the host can do at a command boundary. -/
inductive HostEvent where
  /-- It presents a command word (R38, R39). -/
  | command (w : CmdWord)
  /-- It presents no command, `cmd_valid` = 0 (R48). -/
  | noCommand
  /-- It asserts `rst` (R87; log 8). -/
  | reset
  /-- Two hosts present commands at once, with no arbiter (R31, R98, U2; log 7). -/
  | concurrent (w₁ w₂ : CmdWord)
deriving DecidableEq, Repr

/-- The machine. Only `block` is state of the hardware; `host` and `responses` are the bookkeeping of a run that R10
keeps outside it (logs 1 and 2). -/
structure State where
  /-- `(S, BUF, CNT)`. -/
  block : Block
  /-- What the host will do, the next event first. -/
  host : List HostEvent
  /-- The responses of the run, in order. -/
  responses : List Response
deriving DecidableEq, Repr

/-- The block raises no exception, for any command, operand or state (R73): there is no fault. -/
inductive Fault where
deriving DecidableEq, Repr

/-- Why a step gives no next state. -/
inductive Refusal where
  /-- Raised by `exec` for an instruction that has no meaning yet; no instruction is left so. Safe. -/
  | notModelled (mnemonic : String)
  /-- Raised by SEED with operand 0: the source's undefined behaviour, treatment `refuse` (U1, R51, D19; log 4).
  Safe. -/
  | zeroSeed
  /-- Raised by NEXT, and by UBITS and SBITS when they need a refill, where the Generator State is 0: "the source gives
  no behaviour" (R52 corner case 2, U1; log 5). No run reaches such a state. Safe. -/
  | zeroState
  /-- Raised by a step where two hosts drive the block at once: treatment `refuse` (R31, U2; log 7). Safe. -/
  | concurrentAccess
deriving DecidableEq, Repr

/-- The block after reset: `S = DEFAULT_SEED`, `CNT = RESET_CNT`, `BUF = RESET_BUF` (R23, R87). -/
def Block.reset (c : Config) : Block := ⟨c.defaultSeed, c.resetBuf, c.resetCnt⟩

/-- The machine right after reset (R23, R87): the block in its reset state, nothing presented, nothing answered. -/
def State.reset : State where
  block := Block.reset Config.hw
  host := []
  responses := []

end Sys2Proof.Machine
end

