-- ==== Sys2Proof/Machine/Ops.lean ====
section
/-! DEFINITION. The operations the commands are made of: the xorshift transform (R49), the refill and the pull (R59),
`PullBits` (R60), a response, the one error class (R74), and serving a valid request.
The block takes no exception and returns from none (R73, R78, R79); what stands in that place is `rejectRequest`. -/
namespace Sys2Proof.Machine

/-- The xorshift transform `XS` (R49): three shift-and-XOR steps, each on the result of the one before. -/
def xs (c : Config) (x : Byte) : Byte :=
  let t1 := x ^^^ shl8 x c.shA
  let t2 := t1 ^^^ shr8 t1 c.shB
  t2 ^^^ shl8 t2 c.shC

/-- `S <- XS(S)`: the advance that NEXT and a refill perform (R52, R59). -/
def advance (c : Config) (b : Block) : Block := ⟨xs c b.S, b.BUF, b.CNT⟩

/-- A refill: `S <- XS(S)`, `BUF <- S`, `CNT <- 8` (R59). -/
def refill (c : Config) (b : Block) : Block :=
  let a := advance c b
  ⟨a.S, a.S, 8⟩

/-- On demand only: refill exactly when `CNT = 0` (R59, R61). -/
def refillIfEmpty (c : Config) (b : Block) : Block := if b.CNT = 0 then refill c b else b

/-- `CNT <- CNT - 1`, performed only when `CNT >= 1` (R56(c), R59). -/
def decCnt (n : Fin 9) : Fin 9 := ⟨n.val - 1, Nat.lt_of_le_of_lt (Nat.sub_le n.val 1) n.isLt⟩

/-- Takes one bit out of a buffer that is not empty. With `LSB_FIRST` it is `BUF[0]` and zero enters at bit 7 (R59);
with `MSB_FIRST`, the alternative of D3, it is `BUF[7]` and zero enters at bit 0. -/
def takeBit (c : Config) (b : Block) : Bool × Block :=
  match c.pullOrder with
  | .lsbFirst => (b.BUF.getLsbD 0, ⟨b.S, shr8 b.BUF 1, decCnt b.CNT⟩)
  | .msbFirst => (b.BUF.getLsbD 7, ⟨b.S, shl8 b.BUF 1, decCnt b.CNT⟩)

/-- `PullBit()` (R59). -/
def pullBit (c : Config) (b : Block) : Bool × Block := takeBit c (refillIfEmpty c b)

/-- The loop of `PullBits` (R60): `k` more bits into the accumulator `r`, each entering at bit 0. -/
def pullBitsFrom (c : Config) : Nat → Byte → Block → Byte × Block
  | 0, r, b => (r, b)
  | k + 1, r, b => pullBitsFrom c k (shl8 r 1 ||| zext8 (pullBit c b).1) (pullBit c b).2

/-- `PullBits(k)` (R60). -/
def pullBits (c : Config) (k : Nat) (b : Block) : Byte × Block := pullBitsFrom c k 0x00#8 b

/-- A command that needs `k` bits refills exactly when `k > CNT` at its start (R17, R61). -/
def needsRefill (k : Nat) (b : Block) : Bool := b.CNT.val < k

/-- Ends a command: the block as the command leaves it, and one more response of the run (R7, R10). -/
def State.respond (s : State) (b : Block) (r : Response) : State :=
  { s with block := b, responses := s.responses ++ [r] }

/-- The one error class (R74): response 0x00, no register changed, no bit consumed. -/
def rejectRequest (s : State) : Host.Outcome State Fault Refusal := .next (s.respond s.block (some 0x00#8))

/-- Serves a valid request of `k` bits and answers the finished field. A refill out of a zero Generator State is
refused: the source gives it no behaviour (U1; log 5). -/
def dispense (k : Nat) (finish : Byte → Byte) (s : State) : Host.Outcome State Fault Refusal :=
  if needsRefill k s.block && s.block.S == 0x00#8 then .refused .zeroState
  else .next (s.respond (pullBits Config.hw k s.block).2 (some (finish (pullBits Config.hw k s.block).1)))

end Sys2Proof.Machine
end

