-- ==== Sys2Proof/Machine/BitDispenser.lean ====
section
/-! DEFINITION. The Bit Dispenser's commands, UBITS (R64, R66) and SBITS (R67, R70), over the one Bit Buffer (R36).
Each tests its operand before anything else (R77). -/
namespace Sys2Proof.Machine

/-- UBITS n (R64): the next `n` bits, unsigned; an invalid `n` returns 0x00 and changes nothing (R66). -/
def execUbits (n : Byte) (s : State) : Host.Outcome State Fault Refusal :=
  if invalidWidth Config.hw.umax n then rejectRequest s
  else dispense (bitCount n) unsignedResult s

/-- SBITS n (R67): the next `n + 1` bits, signed; an invalid `n` returns 0x00 and changes nothing (R70). -/
def execSbits (n : Byte) (s : State) : Host.Outcome State Fault Refusal :=
  if invalidWidth Config.hw.smax n then rejectRequest s
  else dispense (bitCount n + 1) (signedResult Config.hw (bitCount n)) s

end Sys2Proof.Machine
end

