-- ==== Sys2Proof/Machine/StateEngine.lean ====
section
/-! DEFINITION. The State Engine's commands, SEED (R51) and NEXT (R52). Neither reads or writes `BUF` or `CNT` (R57). -/
namespace Sys2Proof.Machine

/-- SEED v (R51): `S <- v`, no response value. SEED 0 has no defined behaviour and is refused (U1; log 4). -/
def execSeed (v : Byte) (s : State) : Host.Outcome State Fault Refusal :=
  if v == 0x00#8 then .refused .zeroSeed
  else .next (s.respond ⟨v, s.block.BUF, s.block.CNT⟩ none)

/-- NEXT (R52): `S <- XS(S)`, and the new `S` is the response. In a zero Generator State it is refused (R52 corner
case 2, U1; log 5). -/
def execNext (s : State) : Host.Outcome State Fault Refusal :=
  if s.block.S == 0x00#8 then .refused .zeroState
  else .next (s.respond (advance Config.hw s.block) (some (advance Config.hw s.block).S))

end Sys2Proof.Machine
end

