-- ==== Sys2Proof/Syntax.lean ====
section
/-! DEFINITION. The commands of the block, one constructor for each row of spec/opcode_table.json (R37), and a
command as it is written in assembler text (R46). -/
namespace Sys2Proof

/-- The four commands (R37). The operand is the 8-bit `arg` field taken unsigned (R40); NEXT has none, its field is
ignored (R44). -/
inductive Instr where
  /-- SEED v (R51). -/
  | seed (v : Byte)
  /-- NEXT (R52). -/
  | next
  /-- UBITS n (R64). -/
  | ubits (n : Byte)
  /-- SBITS n (R67). -/
  | sbits (n : Byte)
deriving DecidableEq, Repr

/-- The four mnemonics (R37). -/
inductive Mnemonic where
  | seed
  | next
  | ubits
  | sbits
deriving DecidableEq, Repr

/-- A command as written in assembler text (R46): a mnemonic and perhaps a number, of any size. -/
structure Source where
  mnemonic : Mnemonic
  operand : Option Nat
deriving DecidableEq, Repr

end Sys2Proof
end

