-- ==== Sys2Proof/Machine/Dispatch.lean ====
section
/-! DEFINITION. One arm for each command (R37). -/
namespace Sys2Proof.Machine

def exec (i : Instr) (s : State) : Host.Outcome State Fault Refusal :=
  match i with
  | .seed v => Sys2Proof.Machine.execSeed v s
  | .next => Sys2Proof.Machine.execNext s
  | .ubits n => Sys2Proof.Machine.execUbits n s
  | .sbits n => Sys2Proof.Machine.execSbits n s

end Sys2Proof.Machine
end

