-- ==== Sys2Proof/WellFormed.lean ====
section
/-! DEFINITION. What is well formed: every command (R43), a written command whose operand is present and in range
(R46), and a configuration record that keeps the constraints of R5. -/
namespace Sys2Proof

/-- Every command is well formed: no operand value is illegal or reserved (R43). An invalid bit count is a "well-formed
command with defined behaviour", and SEED 0 is encodable and legal as an encoding. -/
def Instr.wf : Instr → Bool
  | .seed _ => true
  | .next => true
  | .ubits _ => true
  | .sbits _ => true

/-- A written command is well formed when it has the operand its mnemonic takes, a number from 0 to 255 (R46: "a
number outside 0 to 255 is an assembly error, not a command"), and NEXT has none. -/
def Source.wf (c : Source) : Bool :=
  match c.mnemonic, c.operand with
  | .seed, some v => v ≤ 255
  | .ubits, some n => n ≤ 255
  | .sbits, some n => n ≤ 255
  | .next, none => true
  | .seed, none => false
  | .ubits, none => false
  | .sbits, none => false
  | .next, some _ => false

/-- The widths and bounds that R5 fixes: `W` = 8, `CNT_W` = 4, `UMAX` = 8, `SMAX` = 7, `CMD_W` = 10. -/
def Config.sizesWf (c : Config) : Bool :=
  c.w == 8 && c.cntW == 4 && c.umax == 8 && c.smax == 7 && c.cmdW == 10

/-- Each shift distance is between 1 and 7, smaller than the width (R56(b)) and the range decision D1 enumerates. -/
def Config.distancesWf (c : Config) : Bool :=
  (1 ≤ c.shA && c.shA ≤ 7) && (1 ≤ c.shB && c.shB ≤ 7) && (1 ≤ c.shC && c.shC ≤ 7)

/-- The constraints of R5 on a configuration: `DEFAULT_SEED` is not zero, the distances are shift distances of a byte,
and the widths and bounds are the fixed ones. -/
def Config.wf (c : Config) : Bool := c.defaultSeed != 0x00#8 && c.distancesWf && c.sizesWf

end Sys2Proof
end

