-- ==== Sys2Proof/Decode.lean ====
section
/-! DEFINITION. The decoder (R42), the encoder (R39) and the reading of an opcode-table row's word.
All 1024 command words decode (R43); a number that needs more than 10 bits is no command word and is rejected by
name. -/
namespace Sys2Proof

/-- `op`, bits 9:8 of a command word (R39). -/
def opField (w : CmdWord) : BitVec 2 := w.extractLsb' 8 2

/-- `arg`, bits 7:0 of a command word, an unsigned number with bit 7 the most significant (R39, R40). -/
def argField (w : CmdWord) : Byte := w.extractLsb' 0 8

/-- The opcode map (R37, R42): 0b00 SEED, 0b01 NEXT, 0b10 UBITS, 0b11 SBITS. -/
def mnemonicOf (op : BitVec 2) : Mnemonic :=
  if op = 0b00#2 then .seed
  else if op = 0b01#2 then .next
  else if op = 0b10#2 then .ubits
  else .sbits

/-- Decoding is by `cmd[9:8]` alone (R42); NEXT ignores the operand field (R44). -/
def decode (w : CmdWord) : Instr :=
  match mnemonicOf (opField w) with
  | .seed => .seed (argField w)
  | .next => .next
  | .ubits => .ubits (argField w)
  | .sbits => .sbits (argField w)

/-- A command word from its two fields: `cmd = op * 256 + arg` (R39). -/
def cmdWord (op : BitVec 2) (arg : Byte) : CmdWord := op ++ arg

/-- The word of a command (R39); NEXT in its canonical form, `arg` = 0x00 (R44). -/
def encode : Instr → CmdWord
  | .seed v => cmdWord 0b00#2 v
  | .next => cmdWord 0b01#2 0x00#8
  | .ubits n => cmdWord 0b10#2 n
  | .sbits n => cmdWord 0b11#2 n

/-- Why a number is not a command word. -/
inductive DecodeError where
  /-- It has a bit above bit 9: the command port has 10 lines (R38, R39). -/
  | notACommandWord
deriving DecidableEq, Repr

/-- The decoder on any number (log 11): its 10-bit word's command, or the rejection by name. -/
def decodeNat (v : Nat) : Except DecodeError Instr :=
  if v < 2 ^ 10 then .ok (decode (BitVec.ofNat 10 v)) else .error .notACommandWord

/-- The command of an opcode-table word of `nbits` bits (bits above `nbits` are zero). One command is one word: no
bytes are laid out, since the block fetches nothing (R19, R33, R45). -/
def decodeTableWord (nbits w : Nat) : Option Instr :=
  match decodeNat (w % 2 ^ nbits) with
  | .ok i => some i
  | .error _ => none

end Sys2Proof
end

