-- ==== Sys2Proof/Machine/Port.lean ====
section
/-! DEFINITION. The command port and the response port (R38): which event the input pins are at a command boundary,
what the response port shows when a command completes, what each event but a command does, and how a program is
loaded. -/
namespace Sys2Proof.Machine

/-- The input pins at a command boundary (R38). `clk` is left out: no rule depends on it. -/
structure InputPins where
  rst : Bool
  cmdValid : Bool
  cmdOp : BitVec 2
  cmdArg : Byte
deriving DecidableEq, Repr

/-- The event the pins are. While `rst` is asserted the block takes the reset state, whatever is presented (log 8);
otherwise `cmd_valid` says whether a command is presented, whose word has `cmd_op` in bits 9:8 and `cmd_arg` in bits
7:0 (R38). -/
def InputPins.event (p : InputPins) : HostEvent :=
  if p.rst then .reset
  else if p.cmdValid then .command (cmdWord p.cmdOp p.cmdArg)
  else .noCommand

/-- The response port at the completion of a command (R38, R41). -/
structure ResponsePins where
  rspValid : Bool
  rspData : Byte
deriving DecidableEq, Repr

/-- The port at the completion of the `i`-th command of a run: `rsp_valid` marks it, also for SEED, whose `rsp_data`
may be any value (R41, U4; log 10). -/
def responsePins (i : Nat) (r : Response) : ResponsePins :=
  match r with
  | some v => ⟨true, v⟩
  | none => ⟨true, Config.freeRspData i⟩

/-- The machine once the host's next event is taken: `rest` is what the host will do after it. -/
def State.awaiting (s : State) (rest : List HostEvent) : State := { s with host := rest }

/-- No command is presented: nothing changes (R48). -/
def idle (s : State) : State := s

/-- `rst` (R87): the reset state, whatever the state was before. It starts a new run, so the responses start anew; what
the host does next is the host's (log 8). -/
def applyReset (s : State) : State := { State.reset with host := s.host }

/-- A program: the host presents the commands `ws`, in order, and then nothing (R10; log 11). -/
def State.withProgram (s : State) (ws : List CmdWord) : State := { s with host := ws.map .command }

end Sys2Proof.Machine
end

