-- ==== Sys2Proof/Machine/Step.lean ====
section
/-! DEFINITION. One step is one whole event of the host at a command boundary (R9): mostly one whole command. -/
namespace Sys2Proof.Machine

/-- One step (R9, R31). A presented word is decoded and executed whole; with nothing presented nothing changes (R48);
two hosts at once are refused (U2). -/
def step (s : State) : Host.Outcome State Fault Refusal :=
  match s.host with
  | [] => .next (idle s)
  | .noCommand :: rest => .next (idle (s.awaiting rest))
  | .reset :: rest => .next (applyReset (s.awaiting rest))
  | .command w :: rest => exec (decode w) (s.awaiting rest)
  | .concurrent _ _ :: _ => .refused .concurrentAccess

/-- The host presents the command of an opcode-table word next, before whatever it was going to do (log 11). -/
def State.withFetchWord (s : State) (nbits w : Nat) : State :=
  { s with host := .command (BitVec.ofNat 10 (w % 2 ^ nbits)) :: s.host }

end Sys2Proof.Machine
end

