-- ==== Sys2Proof/Machine/Assembler.lean ====
section
/-! DEFINITION. Assembler text (R46): one command a line, a mnemonic in capitals, then one number from 0 to 255 for
SEED, UBITS and SBITS, in decimal or hexadecimal, and nothing for NEXT; `;` starts a comment. There are no labels and
no pseudo-instructions (R47). What R46 does not say of spaces and empty lines is the model's own (log 13). -/
namespace Sys2Proof.Machine

/-- Why a line is no command. -/
inductive AsmError where
  /-- The first word is none of the four mnemonics. -/
  | unknownMnemonic
  /-- The operand is no decimal and no hexadecimal number. -/
  | notANumber
  /-- The operand is missing, is not wanted, or is outside 0 to 255. -/
  | illFormed
  /-- Something stands after the operand. -/
  | trailingText
deriving DecidableEq, Repr

/-- A written command's command, where it is well formed (R46). -/
def commandOf (c : Source) : Option Instr :=
  if c.wf then
    match c.mnemonic with
    | .seed => some (.seed (BitVec.ofNat 8 (c.operand.getD 0)))
    | .next => some .next
    | .ubits => some (.ubits (BitVec.ofNat 8 (c.operand.getD 0)))
    | .sbits => some (.sbits (BitVec.ofNat 8 (c.operand.getD 0)))
  else none

/-- The value of a decimal digit. -/
def decDigit (ch : Char) : Option Nat :=
  if 48 ≤ ch.toNat ∧ ch.toNat ≤ 57 then some (ch.toNat - 48) else none

/-- The value of a hexadecimal digit, in either case. -/
def hexDigit (ch : Char) : Option Nat :=
  if 48 ≤ ch.toNat ∧ ch.toNat ≤ 57 then some (ch.toNat - 48)
  else if 65 ≤ ch.toNat ∧ ch.toNat ≤ 70 then some (ch.toNat - 55)
  else if 97 ≤ ch.toNat ∧ ch.toNat ≤ 102 then some (ch.toNat - 87)
  else none

/-- Digits in base `base`, after the value `acc` of those before them. -/
def readDigits (base : Nat) (digit : Char → Option Nat) : Nat → List Char → Option Nat
  | acc, [] => some acc
  | acc, ch :: rest =>
    match digit ch with
    | some d => readDigits base digit (base * acc + d) rest
    | none => none

/-- A number: `0x` and hexadecimal digits, or decimal digits (R6, R46). -/
def readNumber (t : List Char) : Option Nat :=
  match t with
  | [] => none
  | '0' :: 'x' :: d :: ds => readDigits 16 hexDigit 0 (d :: ds)
  | d :: ds => readDigits 10 decDigit 0 (d :: ds)

/-- A mnemonic, in capitals (R46). -/
def readMnemonic (t : List Char) : Option Mnemonic :=
  if t = ['S', 'E', 'E', 'D'] then some .seed
  else if t = ['N', 'E', 'X', 'T'] then some .next
  else if t = ['U', 'B', 'I', 'T', 'S'] then some .ubits
  else if t = ['S', 'B', 'I', 'T', 'S'] then some .sbits
  else none

/-- A line without its comment: `;` starts a comment that runs to the end of the line (R46). -/
def stripComment : List Char → List Char
  | [] => []
  | ch :: rest => if ch = ';' then [] else ch :: stripComment rest

/-- The words of a line, set apart by spaces or tabs; `word` is the word being read. -/
def splitWords : List Char → List Char → List (List Char)
  | word, [] => if word = [] then [] else [word]
  | word, ch :: rest =>
    if ch = ' ' ∨ ch = '\t' then (if word = [] then splitWords [] rest else word :: splitWords [] rest)
    else splitWords (word ++ [ch]) rest

/-- The command a line's words are written as. -/
def readSource (words : List (List Char)) : Except AsmError Source :=
  match words with
  | [] => .error .unknownMnemonic
  | [m] =>
    match readMnemonic m with
    | some k => .ok ⟨k, none⟩
    | none => .error .unknownMnemonic
  | [m, a] =>
    match readMnemonic m, readNumber a with
    | some k, some v => .ok ⟨k, some v⟩
    | some _, none => .error .notANumber
    | none, _ => .error .unknownMnemonic
  | _ :: _ :: _ :: _ => .error .trailingText

/-- A line of assembler text: its command, nothing for an empty or a comment line, or the reason it is neither (R46). -/
def assembleLine (line : List Char) : Except AsmError (Option Instr) :=
  match splitWords [] (stripComment line) with
  | [] => .ok none
  | words =>
    match readSource words with
    | .error e => .error e
    | .ok c =>
      match commandOf c with
      | some i => .ok (some i)
      | none => .error .illFormed

/-- The lines of a text; `line` is the line being read. -/
def splitLines : List Char → List Char → List (List Char)
  | line, [] => [line]
  | line, ch :: rest => if ch = '\n' then line :: splitLines [] rest else splitLines (line ++ [ch]) rest

/-- The command words of the lines of a text (R46), or the reason of the first line that is no command. -/
def assembleLines : List (List Char) → Except AsmError (List CmdWord)
  | [] => .ok []
  | line :: rest =>
    match assembleLine line, assembleLines rest with
    | .ok none, .ok ws => .ok ws
    | .ok (some i), .ok ws => .ok (encode i :: ws)
    | .ok _, .error e => .error e
    | .error e, _ => .error e

/-- A program text's command words, in order (R10, R46). -/
def assemble (text : List Char) : Except AsmError (List CmdWord) := assembleLines (splitLines [] text)

/-- The digit of a value below 16, in capitals. -/
def digitChar (d : Nat) : Char := if d < 10 then Char.ofNat (48 + d) else Char.ofNat (55 + d)

/-- `0xNN` (R6). -/
def printHex (v : Byte) : List Char := ['0', 'x', digitChar (v.toNat / 16), digitChar (v.toNat % 16)]

/-- A decimal number without leading zeros. -/
def printDec (v : Byte) : List Char :=
  if v.toNat < 10 then [digitChar v.toNat]
  else if v.toNat < 100 then [digitChar (v.toNat / 10), digitChar (v.toNat % 10)]
  else [digitChar (v.toNat / 100), digitChar (v.toNat / 10 % 10), digitChar (v.toNat % 10)]

/-- The text of a command (R46): SEED's operand by convention hexadecimal, a bit count by convention decimal. -/
def printInstr : Instr → List Char
  | .seed v => ['S', 'E', 'E', 'D', ' '] ++ printHex v
  | .next => ['N', 'E', 'X', 'T']
  | .ubits n => ['U', 'B', 'I', 'T', 'S', ' '] ++ printDec n
  | .sbits n => ['S', 'B', 'I', 'T', 'S', ' '] ++ printDec n

end Sys2Proof.Machine
end

