-- ==== Sys2Proof/Safety.lean ====
section
/-! DEFINITION. What counts as a safe run, and the terms the statements use: the invariants of R24, the host's contract
(R51, R98), the declared consumption of a command (R71), the dispenser stream (R28), the canonical cycle (R55). None of
it is state of the block, and no command reads it. -/
namespace Sys2Proof

/-- A command that draws on the Bit Dispenser. -/
def Instr.isRequest : Instr → Bool
  | .seed _ => false
  | .next => false
  | .ubits _ => true
  | .sbits _ => true

end Sys2Proof

namespace Sys2Proof.Machine

/-- What holds of the block at every command boundary (R24). -/
abbrev Block.Inv (b : Block) : Prop := b.CNT.val ≤ 7 ∧ b.BUF.toNat < 2 ^ b.CNT.val ∧ b.S ≠ 0x00#8

/-- R24, of the machine. -/
abbrev State.Inv (s : State) : Prop := s.block.Inv

/-- The host keeps its contract in an event: it never sends SEED 0 (R51, R94) and there is one host (R98). -/
def HostEvent.keepsContract : HostEvent → Bool
  | .command w => decode w != .seed 0x00#8
  | .noCommand => true
  | .reset => true
  | .concurrent _ _ => false

/-- The host keeps its contract in all it is going to do. -/
def State.hostKeepsContract (s : State) : Bool := s.host.all HostEvent.keepsContract

/-- `k` steps of the machine, stopping at the first refusal (R10). -/
def runFor : Nat → State → Host.Outcome State Fault Refusal
  | 0, s => .next s
  | k + 1, s =>
    match step s with
    | .next t => runFor k t
    | .fault f => .fault f
    | .refused r => .refused r

/-- The declared consumption of a command (R71): `n` for a valid UBITS, `n + 1` for a valid SBITS, else 0. -/
def declaredBits : Instr → Nat
  | .seed _ => 0
  | .next => 0
  | .ubits n => if 1 ≤ n.toNat ∧ n.toNat ≤ 8 then n.toNat else 0
  | .sbits n => if 1 ≤ n.toNat ∧ n.toNat ≤ 7 then n.toNat + 1 else 0

/-- The byte a command's refill loads, if it refills: exactly when it needs more bits than `CNT` holds (R17, R61). -/
def refillByte (i : Instr) (b : Block) : Option Byte :=
  if b.CNT.val < declaredBits i then some (xs Config.hw b.S) else none

/-- How often a command advances `S`: once for NEXT and once for a refill (R54). -/
def advances (i : Instr) (b : Block) : Nat :=
  match i with
  | .seed _ => 0
  | .next => 1
  | .ubits n => if b.CNT.val < declaredBits (.ubits n) then 1 else 0
  | .sbits n => if b.CNT.val < declaredBits (.sbits n) then 1 else 0

/-- The bytes the refills of a command list load, in order (R28), following the run from `s`. -/
def refillBytes : List Instr → State → List Byte
  | [], _ => []
  | i :: is, s =>
    (refillByte i s.block).toList ++
      (match exec i s with
       | .next t => refillBytes is t
       | .fault _ => []
       | .refused _ => [])

/-- The total declared consumption of a command list, `T` of R71. -/
def totalDeclared (is : List Instr) : Nat := (is.map declaredBits).sum

/-- The bits a response carries, in the order they were pulled: the low `declaredBits` bits of it, the first pulled in
the most significant position (R60). -/
def responseBits (i : Instr) (r : Response) : List Bool :=
  match r with
  | none => []
  | some v => ((List.range (declaredBits i)).map v.getLsbD).reverse

/-- The bits of a byte in the order they leave the holding register, bit 0 first (R27). -/
def byteBits (y : Byte) : List Bool := (List.range 8).map y.getLsbD

/-- The valid bits of the buffer in the order they are due, `BUF[0]` first (R14). -/
def liveBits (b : Block) : List Bool := (List.range b.CNT.val).map b.BUF.getLsbD

/-- The bit a request pulls `i`-th (counting from 0) from `b`, for a request of at most 8 bits: the buffered bits first,
then those of the fresh byte `XS(S)` (R63). -/
def requestBit (b : Block) (i : Nat) : Bool :=
  if i < b.CNT.val then b.BUF.getLsbD i else (xs Config.hw b.S).getLsbD (i - b.CNT.val)

/-- The block after a request of `k` bits (R63). -/
def afterRequest (b : Block) (k : Nat) : Block :=
  if k ≤ b.CNT.val then
    ⟨b.S, b.BUF >>> k, ⟨b.CNT.val - k, Nat.lt_of_le_of_lt (Nat.sub_le b.CNT.val k) b.CNT.isLt⟩⟩
  else
    ⟨xs Config.hw b.S, xs Config.hw b.S >>> (k - b.CNT.val),
      ⟨8 - (k - b.CNT.val), Nat.lt_of_le_of_lt (Nat.sub_le 8 (k - b.CNT.val)) (by decide)⟩⟩

/-- The number `p 0 * 2^(k-1) + ... + p (k-1)`: `k` bits read with the earliest on the left (R60). -/
def fieldValue (p : Nat → Bool) : Nat → Nat
  | 0 => 0
  | k + 1 => 2 * fieldValue p k + (p k).toNat

/-- The dispenser stream from `b` while the host sends neither SEED nor NEXT (R28): the buffered bits, then the bits of
`XS(S)`, of `XS(XS(S))`, and so on. -/
def streamBit (b : Block) (i : Nat) : Bool :=
  if i < b.CNT.val then b.BUF.getLsbD i
  else ((xs Config.hw)^[(i - b.CNT.val) / 8 + 1] b.S).getLsbD ((i - b.CNT.val) % 8)

/-- Element `k` of the canonical cycle, numbered from 1: `XS` applied `k` times to 0x01 (R55, table T3). -/
def cycleElement (k : Nat) : Byte := (xs Config.hw)^[k] 0x01#8

/-- Two blocks equal but for the stale positions of the holding register (R62). -/
def Block.SameLive (b b' : Block) : Prop :=
  b.S = b'.S ∧ b.CNT = b'.CNT ∧ ∀ i, i < b.CNT.val → b.BUF.getLsbD i = b'.BUF.getLsbD i

end Sys2Proof.Machine
end

