-- ==== Sys2Proof/Certificates/Slice0/Obligations.lean ====
section
/-! DEFINITION. The statements for the provers. Each docstring names the rule of spec/ it formalises; a statement that
rests on a choice of the model's own says so and names the log entry. -/

open Sys2Proof Sys2Proof.Machine

/-! ## Encoding -/

/-- R39, R42, R44: decoding an encoded command gives it back, whatever its operand; encoding a decoded word gives the
word back, but for NEXT, whose ignored operand field comes back in canonical form; and a number is decoded exactly when
it fits 10 bits (the rejection of larger numbers is the model's choice, log 11). -/
def Obligations.EncodeAndDecodeAgree : Prop :=
  (∀ i : Instr, i.wf = true ∧ decode (encode i) = i ∧ decodeTableWord 10 (encode i).toNat = some i) ∧
  (∀ w : CmdWord, encode (decode w) = if opField w = 0b01#2 then 0x100#10 else w) ∧
  (∀ v : Nat, (∃ i, decodeNat v = .ok i) ↔ v < 1024)

/-- R42: decoding is by the two opcode bits alone, as match and mask; the four patterns are disjoint and cover all
1024 words. -/
def Obligations.DecodeByOpcodeBits : Prop :=
  ∀ w : CmdWord,
    ((w &&& 0x300#10 = 0x000#10 ↔ opField w = 0b00#2) ∧ (w &&& 0x300#10 = 0x100#10 ↔ opField w = 0b01#2) ∧
     (w &&& 0x300#10 = 0x200#10 ↔ opField w = 0b10#2) ∧ (w &&& 0x300#10 = 0x300#10 ↔ opField w = 0b11#2)) ∧
    (w &&& 0x300#10 = 0x000#10 → decode w = .seed (argField w)) ∧
    (w &&& 0x300#10 = 0x100#10 → decode w = .next) ∧
    (w &&& 0x300#10 = 0x200#10 → decode w = .ubits (argField w)) ∧
    (w &&& 0x300#10 = 0x300#10 → decode w = .sbits (argField w)) ∧
    [0x000#10, 0x100#10, 0x200#10, 0x300#10].countP (fun m => w &&& 0x300#10 == m) = 1

/-- R44: the 256 words 0x100 to 0x1FF, and no others, are NEXT; they behave identically; the canonical word is
0x100. -/
def Obligations.NextIgnoresOperandField : Prop :=
  (∀ w : CmdWord, decode w = .next ↔ 0x100 ≤ w.toNat ∧ w.toNat ≤ 0x1FF) ∧
  (∀ (w : CmdWord) (s : State) (rest : List HostEvent), decode w = .next →
    step { s with host := .command w :: rest } = step { s with host := .command 0x100#10 :: rest }) ∧
  encode .next = 0x100#10

/-- R40: the operand is bits 7:0 of the word as an unsigned number from 0 to 255, every value can be encoded for every
command that has one, 0 too for SEED, and a bit count is that unsigned number: 0xFF is 255. -/
def Obligations.OperandIsUnsignedByte : Prop :=
  (∀ w : CmdWord, (argField w).toNat = w.toNat % 256 ∧
    (∀ v, decode w = .seed v ∨ decode w = .ubits v ∨ decode w = .sbits v → v = argField w)) ∧
  (∀ v : Byte, (∃ w, decode w = .seed v) ∧ (∃ w, decode w = .ubits v) ∧ (∃ w, decode w = .sbits v)) ∧
  (∀ n : Byte, bitCount n = n.toNat) ∧ bitCount 0xFF#8 = 255

/-- Words written out from R39 and `95_test_vectors.md`: `op` in bits 9:8, `arg` in bits 7:0. -/
def Obligations.SpecWordsDecode : Prop :=
  decode 0b0000000001#10 = .seed 0x01#8 ∧ decode 0b0011001011#10 = .seed 0xCB#8 ∧
  decode 0b0100000000#10 = .next ∧ decode 0b0101010101#10 = .next ∧
  decode 0b1000000011#10 = .ubits 3#8 ∧ decode 0b1011111111#10 = .ubits 255#8 ∧
  decode 0b1100000010#10 = .sbits 2#8 ∧ decode 0b1100001000#10 = .sbits 8#8

/-- R46: the text of every command is read back as that command, also with a comment after it. That a space sets words
apart, so that one may stand between the command and the comment, is the model's choice (log 13). -/
def Obligations.AssemblerReadsPrintedCommand : Prop :=
  ∀ (i : Instr) (note : List Char),
    assembleLine (printInstr i) = .ok (some i) ∧
    assembleLine (printInstr i ++ [' ', ';'] ++ note) = .ok (some i)

/-- R46: "a number outside 0 to 255 is an assembly error, not a command": a written command is a command exactly when
its operand is present and at most 255, and NEXT has none; it is then the command of that operand. -/
def Obligations.AssemblerOperandRange : Prop :=
  (∀ v : Nat, commandOf ⟨.seed, some v⟩ = (if v ≤ 255 then some (.seed (BitVec.ofNat 8 v)) else none)) ∧
  (∀ n : Nat, commandOf ⟨.ubits, some n⟩ = (if n ≤ 255 then some (.ubits (BitVec.ofNat 8 n)) else none)) ∧
  (∀ n : Nat, commandOf ⟨.sbits, some n⟩ = (if n ≤ 255 then some (.sbits (BitVec.ofNat 8 n)) else none)) ∧
  (∀ v : Nat, commandOf ⟨.next, some v⟩ = none) ∧ commandOf ⟨.next, none⟩ = some .next ∧
  commandOf ⟨.seed, none⟩ = none ∧ commandOf ⟨.ubits, none⟩ = none ∧ commandOf ⟨.sbits, none⟩ = none

/-! ## Bit operations and the transform -/

/-- R6: the arithmetic meaning of the shifts and the extensions. -/
def Obligations.ShiftsAndExtensions : Prop :=
  (∀ (v : Byte) (k : Nat), (shl8 v k).toNat = (v.toNat * 2 ^ k) % 256 ∧ (shr8 v k).toNat = v.toNat / 2 ^ k) ∧
  (∀ b : Bool, (zext8 b).toNat = b.toNat) ∧
  (∀ (v : Byte) (k i : Nat), 1 ≤ k → k ≤ 8 → i < 8 →
    (sext8 k v).getLsbD i = if i < k then v.getLsbD i else v.getLsbD (k - 1)) ∧
  (∀ v : Byte, signed8 v = if v.toNat < 128 then (v.toNat : Int) else (v.toNat : Int) - 256)

/-- R49: `XS` written bit by bit, and the worked example `XS(0x01) = 0xAD`. -/
def Obligations.TransformBitByBit : Prop :=
  (∀ x : Byte,
    let t1 := fun i => if i = 7 then xor (x.getLsbD 7) (x.getLsbD 0) else x.getLsbD i
    let t2 := fun i => if i < 3 then xor (t1 i) (t1 (i + 5)) else t1 i
    let t3 := fun i => if 3 ≤ i then xor (t2 i) (t2 (i - 3)) else t2 i
    ∀ i, i < 8 → (xs Config.hw x).getLsbD i = t3 i) ∧
  xs Config.hw 0x01#8 = 0xAD#8

/-- R50: zero is a fixed point, `XS` is a bijection, only zero goes to zero, and `XS` is linear over XOR. -/
def Obligations.TransformProperties : Prop :=
  xs Config.hw 0x00#8 = 0x00#8 ∧
  Function.Bijective (xs Config.hw) ∧
  (∀ v : Byte, xs Config.hw v = 0x00#8 ↔ v = 0x00#8) ∧
  (∀ a b : Byte, xs Config.hw (a ^^^ b) = xs Config.hw a ^^^ xs Config.hw b)

/-- D1: bijectivity and the fixed point zero do not depend on the distances: they hold of every configuration that keeps
the constraints of R5. -/
def Obligations.TransformBijectiveForAllDistances : Prop :=
  ∀ c : Config, c.wf = true → xs c 0x00#8 = 0x00#8 ∧ Function.Bijective (xs c)

/-! ## The State Engine -/

/-- R51: SEED v. Its word; `S <- v`, `BUF` and `CNT` kept, no response value, for every non-zero `v` from every state
(the same state again when `v` is the old `S`); SEED 0 refused (U1; log 4); and the bytes that NEXT returns afterwards are
`XS(v)`, `XS(XS(v))` and so on. -/
def Obligations.SeedCommand : Prop :=
  (∀ v : Byte, decode (cmdWord 0b00#2 v) = .seed v) ∧
  (∀ (v : Byte) (s : State), v ≠ 0x00#8 →
    exec (.seed v) s = .next (s.respond ⟨v, s.block.BUF, s.block.CNT⟩ none)) ∧
  (∀ s : State, s.block.S ≠ 0x00#8 → exec (.seed s.block.S) s = .next (s.respond s.block none)) ∧
  (∀ s : State, exec (.seed 0x00#8) s = .refused .zeroSeed) ∧
  (∀ (v : Byte) (s : State) (m : Nat), v ≠ 0x00#8 →
    ∃ t, runFor (m + 1) (s.withProgram (encode (.seed v) :: List.replicate m (encode .next))) = .next t ∧
      t.responses = s.responses ++ none :: (List.range m).map (fun i => some ((xs Config.hw)^[i + 1] v))) ∧
  (∀ (h : List HostEvent) (rs : List Response),
    exec (.seed 0x01#8) ⟨⟨0x4C#8, 0x15#8, 5⟩, h, rs⟩ = .next ⟨⟨0x01#8, 0x15#8, 5⟩, h, rs ++ [none]⟩)

/-- R52: NEXT. Its words; `S <- XS(S)`, `BUF` and `CNT` kept, the response is the new `S` and is not 0, from every state
with a non-zero `S` (corner case 2 gives the others no behaviour; no run reaches them); 255 advances come back to the same state; the worked
example. -/
def Obligations.NextCommand : Prop :=
  (∀ x : Byte, decode (cmdWord 0b01#2 x) = .next) ∧
  (∀ s : State, s.block.S ≠ 0x00#8 →
    exec .next s =
      .next (s.respond ⟨xs Config.hw s.block.S, s.block.BUF, s.block.CNT⟩ (some (xs Config.hw s.block.S))) ∧
    xs Config.hw s.block.S ≠ 0x00#8 ∧
    (xs Config.hw)^[255] s.block.S = s.block.S ∧ (xs Config.hw)^[256] s.block.S = xs Config.hw s.block.S) ∧
  (∀ (h : List HostEvent) (rs : List Response),
    exec .next ⟨⟨0x01#8, 0x00#8, 0⟩, h, rs⟩ = .next ⟨⟨0xAD#8, 0x00#8, 0⟩, h, rs ++ [some 0xAD#8]⟩ ∧
    exec .next ⟨⟨0xAD#8, 0x00#8, 0⟩, h, rs⟩ = .next ⟨⟨0x4C#8, 0x00#8, 0⟩, h, rs ++ [some 0x4C#8]⟩)

/-- R53: with a non-zero `S` the response of NEXT is in 1 to 255; and so it is for every NEXT of every run from reset,
of any length, that the host's contract allows (a run that gives a next state has met no SEED 0). -/
def Obligations.NextResponseRange : Prop :=
  (∀ s : State, s.block.S ≠ 0x00#8 →
    ∃ t v, exec .next s = .next t ∧ t.responses = s.responses ++ [some v] ∧ 1 ≤ v.toNat ∧ v.toNat ≤ 255) ∧
  (∀ (es : List HostEvent) (k : Nat) (s : State), runFor k { State.reset with host := es } = .next s →
    ∃ t v, exec .next s = .next t ∧ t.responses = s.responses ++ [some v] ∧ 1 ≤ v.toNat ∧ v.toNat ≤ 255)

/-- R54: the permutation property. From every non-zero `S`, `m` NEXT words (whatever their operand fields) return
`XS(S)`, `XS(XS(S))`, ...; the first 255 of these are the 255 values from 1 to 255, each exactly once, the last being `S`
itself, and they repeat with period 255; every other command advances `S` by one position for a refill and by none
otherwise, so each NEXT and each refill is one advance; and the cycle after 0x01 begins and ends as the rule lists. -/
def Obligations.PermutationProperty : Prop :=
  (∀ (s : State) (ws : List CmdWord), s.block.S ≠ 0x00#8 → (∀ w ∈ ws, decode w = .next) →
    runFor ws.length (s.withProgram ws) =
      .next ⟨⟨(xs Config.hw)^[ws.length] s.block.S, s.block.BUF, s.block.CNT⟩, [],
        s.responses ++ (List.range ws.length).map (fun i => some ((xs Config.hw)^[i + 1] s.block.S))⟩) ∧
  (∀ v : Byte, v ≠ 0x00#8 →
    ((List.range 255).map (fun i => (xs Config.hw)^[i + 1] v)).Nodup ∧
    (∀ w : Byte, w ∈ (List.range 255).map (fun i => (xs Config.hw)^[i + 1] v) ↔ w ≠ 0x00#8) ∧
    (xs Config.hw)^[255] v = v ∧
    (∀ i, (xs Config.hw)^[i + 255] v = (xs Config.hw)^[i] v)) ∧
  (∀ (i : Instr) (s t : State), (∀ v, i ≠ .seed v) → exec i s = .next t →
    t.block.S = (xs Config.hw)^[advances i s.block] s.block.S) ∧
  ((List.range 8).map (fun i => cycleElement (i + 1)) =
    [0xAD#8, 0x4C#8, 0x3E#8, 0xC7#8, 0x6D#8, 0xBA#8, 0x47#8, 0xC9#8] ∧
   [cycleElement 253, cycleElement 254, cycleElement 255] = [0xD1#8, 0xCB#8, 0x01#8])

/-- R55: if the seed is element `k` of the canonical cycle, the NEXT commands after it return elements `k + 1`,
`k + 2`, ..., wrapping from element 255 to element 1; and every non-zero byte is on the cycle. -/
def Obligations.SeedingRepositions : Prop :=
  (∀ (s : State) (k m : Nat), 1 ≤ k → k ≤ 255 →
    ∃ t, runFor (m + 1) (s.withProgram (encode (.seed (cycleElement k)) :: List.replicate m (encode .next))) = .next t ∧
      t.responses = s.responses ++ none :: (List.range m).map (fun j => some (cycleElement (k + 1 + j)))) ∧
  (∀ k : Nat, cycleElement (k + 255) = cycleElement k) ∧
  (∀ v : Byte, v ≠ 0x00#8 → ∃ k, 1 ≤ k ∧ k ≤ 255 ∧ cycleElement k = v)

/-- R57: SEED and NEXT never write `BUF` or `CNT`, and never read them: with another buffer, the outcome differs in that
buffer only. -/
def Obligations.SeedAndNextIgnoreTheBuffer : Prop :=
  ∀ (i : Instr) (s t : State), (i = .next ∨ ∃ v, i = .seed v) → exec i s = .next t →
    t.block.BUF = s.block.BUF ∧ t.block.CNT = s.block.CNT ∧
    ∀ (buf : Byte) (cnt : Fin 9),
      exec i { s with block := ⟨s.block.S, buf, cnt⟩ } = .next { t with block := ⟨t.block.S, buf, cnt⟩ }

/-! ## The Bit Dispenser -/

/-- R63: the closed form of `PullBits(k)`, from every block. The bits pulled are the buffered ones and then those of
`XS(S)`; the result is the field with the earliest bit on the left; the next block in both cases; within one byte the
result is the bit reversal of `y[j+k-1:j]`, and `PullBits(8)` on an empty buffer returns the fresh byte reversed. -/
def Obligations.PullBitsClosedForm : Prop :=
  (∀ (b : Block) (k : Nat), 1 ≤ k → k ≤ 8 →
    (∀ i, 1 ≤ i → i ≤ k →
      (pullBits Config.hw k b).1.getLsbD (k - i) =
        if i ≤ b.CNT.val then b.BUF.getLsbD (i - 1) else (xs Config.hw b.S).getLsbD (i - b.CNT.val - 1)) ∧
    (pullBits Config.hw k b).1.toNat < 2 ^ k ∧
    (k ≤ b.CNT.val →
      (pullBits Config.hw k b).2.S = b.S ∧ (pullBits Config.hw k b).2.BUF = shr8 b.BUF k ∧
      (pullBits Config.hw k b).2.CNT.val = b.CNT.val - k) ∧
    (b.CNT.val < k →
      (pullBits Config.hw k b).2.S = xs Config.hw b.S ∧
      (pullBits Config.hw k b).2.BUF = shr8 (xs Config.hw b.S) (k - b.CNT.val) ∧
      (pullBits Config.hw k b).2.CNT.val = 8 - (k - b.CNT.val))) ∧
  (∀ (b : Block) (y : Byte) (j k i : Nat), 1 ≤ k → j + k ≤ 8 → b.BUF = shr8 y j → b.CNT.val = 8 - j → i < k →
    (pullBits Config.hw k b).1.getLsbD i = y.getLsbD (j + (k - 1 - i))) ∧
  (∀ b : Block, b.CNT = 0 →
    ∀ i, i < 8 → (pullBits Config.hw 8 b).1.getLsbD (7 - i) = (xs Config.hw b.S).getLsbD i)

/-- R64: UBITS n for valid `n`. Its word; the response is the next `n` bits of the stream, the first in the most
significant position, zero-extended; the next state is that of R63, in which `S` changes exactly when `n > CNT`; exactly
`n` bits are consumed; no other part of the state changes; an invalid `n` answers 0x00 and changes no register. The
premise leaves out only a refill from `S = 0`, where no run comes (`RunsFromResetKeepInvariants`). -/
def Obligations.UbitsCommand : Prop :=
  (∀ n : Byte, decode (cmdWord 0b10#2 n) = .ubits n) ∧
  (∀ (n : Byte) (s : State), 1 ≤ n.toNat → n.toNat ≤ 8 → n.toNat ≤ s.block.CNT.val ∨ s.block.S ≠ 0x00#8 →
    exec (.ubits n) s =
      .next (s.respond (afterRequest s.block n.toNat)
        (some (BitVec.ofNat 8 (fieldValue (requestBit s.block) n.toNat)))) ∧
    fieldValue (requestBit s.block) n.toNat ≤ 2 ^ n.toNat - 1 ∧
    ((afterRequest s.block n.toNat).S ≠ s.block.S ↔ s.block.CNT.val < n.toNat) ∧
    ((afterRequest s.block n.toNat).CNT.val + n.toNat = s.block.CNT.val + if s.block.CNT.val < n.toNat then 8 else 0)) ∧
  (∀ (n : Byte) (s : State), n = 0x00#8 ∨ 9 ≤ n.toNat →
    exec (.ubits n) s = .next (s.respond s.block (some 0x00#8))) ∧
  (∀ (h : List HostEvent) (rs : List Response),
    exec (.ubits 3#8) ⟨⟨0x01#8, 0x00#8, 0⟩, h, rs⟩ = .next ⟨⟨0xAD#8, 0x15#8, 5⟩, h, rs ++ [some 0x05#8]⟩)

/-- R65: the range of a valid UBITS; `UBITS 8` from an empty buffer never returns 0x00 while `S` is not zero, and
`UBITS 8` whose bits come from two bytes can. -/
def Obligations.UbitsRange : Prop :=
  (∀ (n : Byte) (s t : State), 1 ≤ n.toNat → n.toNat ≤ 8 → exec (.ubits n) s = .next t →
    ∃ v : Byte, t.responses = s.responses ++ [some v] ∧ v.toNat ≤ 2 ^ n.toNat - 1) ∧
  (∀ s : State, s.block.CNT = 0 → s.block.S ≠ 0x00#8 →
    ∃ (t : State) (v : Byte), exec (.ubits 8#8) s = .next t ∧ t.responses = s.responses ++ [some v] ∧ v ≠ 0x00#8) ∧
  (∃ s t : State, s.Inv ∧ 0 < s.block.CNT.val ∧ exec (.ubits 8#8) s = .next t ∧
    t.responses = s.responses ++ [some 0x00#8])

/-- R66: an invalid UBITS returns 0x00 and changes no register, from every state: no refill even if `CNT = 0`, no bit
consumed, and the next command behaves as if it had never been issued. -/
def Obligations.InvalidUbitsChangesNothing : Prop :=
  ∀ (n : Byte) (s : State), n = 0x00#8 ∨ 9 ≤ n.toNat →
    exec (.ubits n) s = .next (s.respond s.block (some 0x00#8)) ∧
    (∀ (i : Instr) (t t' : State), exec (.ubits n) s = .next t → exec i s = .next t' →
      exec i t = .next { t' with responses := s.responses ++ some 0x00#8 :: t'.responses.drop s.responses.length })

/-- R67: SBITS n for valid `n`. Its word; with `t` the field of the next `n + 1` bits, the response is `sext_(n+1)(t)`, whose
integer value is `t - 2^(n+1)` if the first bit pulled is 1 and `t` if it is 0; the next state is that of R63 with
`k = n + 1`; exactly `n + 1` bits are consumed; an invalid `n` answers 0x00 and changes no register. The premise leaves
out only a refill from `S = 0`, where no run comes (`RunsFromResetKeepInvariants`). -/
def Obligations.SbitsCommand : Prop :=
  (∀ n : Byte, decode (cmdWord 0b11#2 n) = .sbits n) ∧
  (∀ (n : Byte) (s : State), 1 ≤ n.toNat → n.toNat ≤ 7 → n.toNat + 1 ≤ s.block.CNT.val ∨ s.block.S ≠ 0x00#8 →
    exec (.sbits n) s =
      .next (s.respond (afterRequest s.block (n.toNat + 1))
        (some (sext8 (n.toNat + 1) (BitVec.ofNat 8 (fieldValue (requestBit s.block) (n.toNat + 1)))))) ∧
    signed8 (sext8 (n.toNat + 1) (BitVec.ofNat 8 (fieldValue (requestBit s.block) (n.toNat + 1)))) =
      (if requestBit s.block 0 then (fieldValue (requestBit s.block) (n.toNat + 1) : Int) - 2 ^ (n.toNat + 1)
       else (fieldValue (requestBit s.block) (n.toNat + 1) : Int)) ∧
    ((afterRequest s.block (n.toNat + 1)).S ≠ s.block.S ↔ s.block.CNT.val < n.toNat + 1) ∧
    ((afterRequest s.block (n.toNat + 1)).CNT.val + (n.toNat + 1) =
      s.block.CNT.val + if s.block.CNT.val < n.toNat + 1 then 8 else 0)) ∧
  (∀ (n : Byte) (s : State), n = 0x00#8 ∨ 8 ≤ n.toNat →
    exec (.sbits n) s = .next (s.respond s.block (some 0x00#8))) ∧
  (∀ (h : List HostEvent) (rs : List Response),
    exec (.sbits 2#8) ⟨⟨0xAD#8, 0x15#8, 5⟩, h, rs⟩ = .next ⟨⟨0xAD#8, 0x02#8, 2⟩, h, rs ++ [some 0xFD#8]⟩)

/-- R68: the range of a valid SBITS is -(2^n) to 2^n - 1, and each of its `2^(n+1)` members is the response from some
state that keeps the invariants. -/
def Obligations.SbitsRange : Prop :=
  (∀ (n : Byte) (s t : State), 1 ≤ n.toNat → n.toNat ≤ 7 → exec (.sbits n) s = .next t →
    ∃ v : Byte, t.responses = s.responses ++ [some v] ∧ -(2 ^ n.toNat : Int) ≤ signed8 v ∧ signed8 v ≤ 2 ^ n.toNat - 1) ∧
  (∀ (n : Byte) (z : Int), 1 ≤ n.toNat → n.toNat ≤ 7 → -(2 ^ n.toNat : Int) ≤ z → z ≤ 2 ^ n.toNat - 1 →
    ∃ (s t : State) (v : Byte), s.Inv ∧ exec (.sbits n) s = .next t ∧ t.responses = s.responses ++ [some v] ∧
      signed8 v = z)

/-- R69: from the same state `SBITS n` and `UBITS (n+1)` consume the same bits and leave the same state, and SBITS's
response is `sext_(n+1)` of UBITS's: equal low `n + 1` bits, and above them the sign against zeros. -/
def Obligations.SbitsMatchesUbits : Prop :=
  ∀ (n : Byte) (s t : State), 1 ≤ n.toNat → n.toNat ≤ 7 → exec (.sbits n) s = .next t →
    ∃ (u : State) (v w : Byte), exec (.ubits (n + 1)) s = .next u ∧ u.block = t.block ∧
      t.responses = s.responses ++ [some v] ∧ u.responses = s.responses ++ [some w] ∧
      v = sext8 (n.toNat + 1) w ∧ (∀ i, i ≤ n.toNat → v.getLsbD i = w.getLsbD i) ∧
      (∀ i, n.toNat < i → i < 8 → v.getLsbD i = v.getLsbD n.toNat ∧ w.getLsbD i = false) ∧ (n.toNat = 7 → v = w)

/-- R70: an invalid SBITS returns 0x00 and changes no register, from every state: no refill even if `CNT = 0`, no bit
consumed, and the next command behaves as if it had never been issued. -/
def Obligations.InvalidSbitsChangesNothing : Prop :=
  ∀ (n : Byte) (s : State), n = 0x00#8 ∨ 8 ≤ n.toNat →
    exec (.sbits n) s = .next (s.respond s.block (some 0x00#8)) ∧
    (∀ (i : Instr) (t t' : State), exec (.sbits n) s = .next t → exec i s = .next t' →
      exec i t = .next { t' with responses := s.responses ++ some 0x00#8 :: t'.responses.drop s.responses.length })

/-- R61: a refill happens on demand only and at most once a command. A command that needs `k` bits and starts with
`CNT = c` refills exactly when `k > c`, and then once: `S` moves by one advance and the count balances with one byte; SEED,
NEXT, an invalid request and a request that just empties the buffer refill nothing; the buffered bits are used first; and
the reset state has not refilled. -/
def Obligations.RefillOnlyOnDemand : Prop :=
  (∀ (i : Instr) (s t : State), exec i s = .next t →
    (declaredBits i ≤ s.block.CNT.val →
      refillByte i s.block = none ∧ t.block.CNT.val + declaredBits i = s.block.CNT.val ∧
      (i.isRequest = true → t.block.S = s.block.S)) ∧
    (s.block.CNT.val < declaredBits i →
      refillByte i s.block = some t.block.S ∧ t.block.S = xs Config.hw s.block.S ∧
      t.block.CNT.val + declaredBits i = s.block.CNT.val + 8 ∧
      ∃ v, t.responses = s.responses ++ [some v] ∧ (responseBits i (some v)).take s.block.CNT.val = liveBits s.block)) ∧
  (∀ i : Instr, i.isRequest = false → declaredBits i = 0) ∧
  (∀ n : Byte, (n = 0x00#8 ∨ 9 ≤ n.toNat → declaredBits (.ubits n) = 0) ∧ (n = 0x00#8 ∨ 8 ≤ n.toNat → declaredBits (.sbits n) = 0)) ∧
  State.reset.block.CNT = 0

/-- R62: the stale positions of the holding register are never read. Two machines equal but for them, with the same host,
stay equal but for them through any run of steps, with the same responses and the same refusals. -/
def Obligations.StaleBitsUnobservable : Prop :=
  ∀ (k : Nat) (s s' : State), s.block.SameLive s'.block → s.host = s'.host → s.responses = s'.responses →
    (∀ t, runFor k s = .next t →
      ∃ t', runFor k s' = .next t' ∧ t.block.SameLive t'.block ∧ t.host = t'.host ∧ t.responses = t'.responses) ∧
    (∀ r, runFor k s = .refused r → runFor k s' = .refused r)

/-- R71: bit-consumption accounting. Over any command list, with `F` the refills and `T` the declared consumption, `8 * F`
and the count at the start make up `T` and the count at the end; from reset `8 * F - T = CNT`. SEED and NEXT declare 0 and
leave the count alone. -/
def Obligations.BitAccounting : Prop :=
  (∀ (ws : List CmdWord) (s t : State), runFor ws.length (s.withProgram ws) = .next t →
    8 * (refillBytes (ws.map decode) s).length + s.block.CNT.val = totalDeclared (ws.map decode) + t.block.CNT.val) ∧
  (∀ (ws : List CmdWord) (t : State), runFor ws.length (State.reset.withProgram ws) = .next t →
    8 * (refillBytes (ws.map decode) State.reset).length - totalDeclared (ws.map decode) = t.block.CNT.val ∧
    totalDeclared (ws.map decode) ≤ 8 * (refillBytes (ws.map decode) State.reset).length) ∧
  (∀ (i : Instr) (s t : State), i.isRequest = false → exec i s = .next t →
    declaredBits i = 0 ∧ refillByte i s.block = none ∧ t.block.CNT = s.block.CNT)

/-- R28: the dispenser stream. Over any command list, the bits the responses carry, in order, followed by the valid bits
still buffered, are the bits buffered at the start followed by the bits of the refill bytes, bit 0 first: every bit of the
stream is taken once, in order, by UBITS and SBITS alike, or is still in the buffer; each refill byte is `XS(S)` at its
refill; without SEED and NEXT each is `XS` of the one before; and a run from reset ends with at most 7 bits never taken. -/
def Obligations.DispenserStream : Prop :=
  (∀ (ws : List CmdWord) (s t : State), runFor ws.length (s.withProgram ws) = .next t →
    ∃ rs : List Response, t.responses = s.responses ++ rs ∧ rs.length = ws.length ∧
      (List.zipWith responseBits (ws.map decode) rs).flatten ++ liveBits t.block =
        liveBits s.block ++ (refillBytes (ws.map decode) s).flatMap byteBits) ∧
  (∀ (i : Instr) (b : Block) (y : Byte), refillByte i b = some y → y = xs Config.hw b.S) ∧
  (∀ (ws : List CmdWord) (s t : State), (∀ w ∈ ws, (decode w).isRequest = true) →
    runFor ws.length (s.withProgram ws) = .next t →
    refillBytes (ws.map decode) s =
      (List.range (refillBytes (ws.map decode) s).length).map (fun j => (xs Config.hw)^[j + 1] s.block.S)) ∧
  (∀ (ws : List CmdWord) (t : State), runFor ws.length (State.reset.withProgram ws) = .next t →
    (liveBits t.block).length ≤ 7)

/-- R72: UBITS and SBITS in any order consume successive, gap-free, non-overlapping runs of one stream. From every state
with a non-zero `S`, any list of requests, valid or not, completes, and the bits of its responses, in order, are the first
bits of the stream, as many as the list declares; and the source's scenario, `SEED 1; UBITS 3; SBITS 2` from reset, answers
0x05 and 0xFD. -/
def Obligations.RequestsShareOneStream : Prop :=
  (∀ (ws : List CmdWord) (s : State), s.block.S ≠ 0x00#8 → (∀ w ∈ ws, (decode w).isRequest = true) →
    ∃ (t : State) (rs : List Response), runFor ws.length (s.withProgram ws) = .next t ∧
      t.responses = s.responses ++ rs ∧ rs.length = ws.length ∧
      (List.zipWith responseBits (ws.map decode) rs).flatten =
        (List.range (totalDeclared (ws.map decode))).map (streamBit s.block)) ∧
  runFor 3 (State.reset.withProgram [0x001#10, 0x203#10, 0x302#10]) =
    .next ⟨⟨0xAD#8, 0x02#8, 2⟩, [], [none, some 0x05#8, some 0xFD#8]⟩ ∧
  (List.range 6).map (streamBit ⟨0x01#8, 0x00#8, 0⟩) = (List.range 6).map (xs Config.hw 0x01#8).getLsbD

/-- D1, D3, D4 (`92_eei_decisions.md`): the range of a field, the count, and whether and how far `S` advances do not depend
on the shift distances, the bit order or the sign position: they are the same for every configuration record. -/
def Obligations.CountsIndependentOfConventions : Prop :=
  ∀ (c : Config) (k : Nat) (b : Block), 1 ≤ k → k ≤ 8 →
    (pullBits c k b).1.toNat < 2 ^ k ∧
    (pullBits c k b).2.S = (if b.CNT.val < k then xs c b.S else b.S) ∧
    (pullBits c k b).2.CNT.val + k = b.CNT.val + (if b.CNT.val < k then 8 else 0)

/-! ## Reset, the host, whole runs -/

/-- R23: the registers after reset: `S` is the default seed, which is not zero, `CNT` is 0 and `BUF` is 0x00. The value of
the default seed is open; that it is an opaque constant is the model's form of it (log 3). -/
def Obligations.ResetRegisters : Prop :=
  State.reset.block.S = Config.hw.defaultSeed ∧ State.reset.block.S ≠ 0x00#8 ∧ State.reset.block.CNT = 0 ∧
  State.reset.block.BUF = 0x00#8 ∧ Config.hw.wf = true

/-- The reset state keeps the invariants of R24. -/
def Obligations.ResetKeepsInvariants : Prop := State.reset.Inv

/-- Every step keeps the invariants of R24, from every state that has them: `CNT` is at most 7, the stale positions of
`BUF` are 0, and `S` is not zero. -/
def Obligations.StepKeepsInvariants : Prop :=
  ∀ s t : State, s.Inv → step s = .next t → t.Inv

/-- R24: the invariants at every command boundary of every run from reset. (A run that gives a next state has met no
SEED 0, which is refused.) The count 8 stands only between a refill and the pull that follows it. -/
def Obligations.RunsFromResetKeepInvariants : Prop :=
  (∀ (es : List HostEvent) (k : Nat) (t : State), runFor k { State.reset with host := es } = .next t →
    t.block.CNT.val ≤ 7 ∧ t.block.BUF.toNat < 2 ^ t.block.CNT.val ∧ t.block.S ≠ 0x00#8) ∧
  (∀ b : Block, (refill Config.hw b).CNT = 8 ∧ (pullBit Config.hw b).2.CNT.val ≤ 7)

/-- R73, R86: the block is never stuck. From every state with the invariants and a host that keeps its contract, any
number of steps gives a next state, with the invariants again; and a list of `n` commands gets `n` responses. -/
def Obligations.ContractRunsNeverStop : Prop :=
  (∀ (k : Nat) (s : State), s.Inv → s.hostKeepsContract = true →
    ∃ t, runFor k s = .next t ∧ t.Inv ∧ t.hostKeepsContract = true) ∧
  (∀ (ws : List CmdWord) (s : State), s.Inv → (∀ w ∈ ws, decode w ≠ .seed 0x00#8) →
    ∃ t, runFor ws.length (s.withProgram ws) = .next t ∧ t.host = [] ∧
      t.responses.length = s.responses.length + ws.length)

/-- Exactly when a step gives no next state: two hosts at once (U2; log 7), SEED 0 (U1; log 4), and an advance of a zero
Generator State (U1; log 5); never otherwise, and never by a fault (R73). -/
def Obligations.StepStopsExactlyWhen : Prop :=
  ∀ s : State,
    (∀ f, step s ≠ .fault f) ∧
    (step s = .refused .concurrentAccess ↔ ∃ w₁ w₂ rest, s.host = .concurrent w₁ w₂ :: rest) ∧
    (step s = .refused .zeroSeed ↔ ∃ w rest, s.host = .command w :: rest ∧ decode w = .seed 0x00#8) ∧
    (step s = .refused .zeroState ↔ s.block.S = 0x00#8 ∧ ∃ w rest, s.host = .command w :: rest ∧
      (decode w = .next ∨ s.block.CNT.val < declaredBits (decode w))) ∧
    (∀ m, step s ≠ .refused (.notModelled m))

/-- R9, R42: when the host presents a command word next, the step is the command it decodes to, executed on the machine
whose host has presented it; and `withFetchWord` presents an opcode-table word so. That the host's words stand in State,
and that a program is placed there from outside, is the model's choice (logs 1, 11). -/
def Obligations.StepRunsDecodedCommand : Prop :=
  (∀ (s : State) (w : CmdWord) (rest : List HostEvent), s.host = .command w :: rest →
    step s = exec (decode w) { s with host := rest }) ∧
  (∀ (s : State) (nbits w : Nat) (i : Instr), decodeTableWord nbits w = some i → step (s.withFetchWord nbits w) = exec i s)

/-- R48: while the host presents no command nothing changes, for any length of time. -/
def Obligations.NoCommandChangesNothing : Prop :=
  (∀ (m : Nat) (s : State), s.host = [] → runFor m s = .next s) ∧
  (∀ (m : Nat) (s : State) (rest : List HostEvent),
    runFor m { s with host := List.replicate m .noCommand ++ rest } = .next { s with host := rest })

/-- R87: the reset event puts the block into the reset state, whatever the state was before; a run begins in that
state. -/
def Obligations.ResetEventResetsBlock : Prop :=
  (∀ (s : State) (rest : List HostEvent), s.host = .reset :: rest →
    ∃ t, step s = .next t ∧ t.block.S = Config.hw.defaultSeed ∧ t.block.CNT = 0 ∧ t.block.BUF = 0x00#8) ∧
  State.reset.block = ⟨Config.hw.defaultSeed, 0x00#8, 0⟩

/-- A reset in the middle of a run is the start of a new run: from there on the run is the one of `State.reset` with the
host's later events. That the responses start anew and the host's later events stay is the model's choice (log 8). -/
def Obligations.ResetEventStartsNewRun : Prop :=
  ∀ (s : State) (rest : List HostEvent) (k : Nat), s.host = .reset :: rest →
    runFor (k + 1) s = runFor k { State.reset with host := rest }

/-- R88: what each command answers when it is issued first after reset: NEXT returns `XS(DEFAULT_SEED)`, a valid request is
served from that byte, an invalid one returns 0x00 and leaves the reset state. -/
def Obligations.UsableRightAfterReset : Prop :=
  (exec .next State.reset = .next ⟨⟨xs Config.hw Config.hw.defaultSeed, 0x00#8, 0⟩, [], [some (xs Config.hw Config.hw.defaultSeed)]⟩) ∧
  (∀ n : Byte, 1 ≤ n.toNat → n.toNat ≤ 8 →
    exec (.ubits n) State.reset =
      .next (State.reset.respond
        ⟨xs Config.hw Config.hw.defaultSeed, shr8 (xs Config.hw Config.hw.defaultSeed) n.toNat, Fin.ofNat 9 (8 - n.toNat)⟩
        (some (BitVec.ofNat 8 (fieldValue (xs Config.hw Config.hw.defaultSeed).getLsbD n.toNat))))) ∧
  (∀ n : Byte, 1 ≤ n.toNat → n.toNat ≤ 7 →
    exec (.sbits n) State.reset =
      .next (State.reset.respond
        ⟨xs Config.hw Config.hw.defaultSeed, shr8 (xs Config.hw Config.hw.defaultSeed) (n.toNat + 1),
          Fin.ofNat 9 (8 - (n.toNat + 1))⟩
        (some (sext8 (n.toNat + 1)
          (BitVec.ofNat 8 (fieldValue (xs Config.hw Config.hw.defaultSeed).getLsbD (n.toNat + 1))))))) ∧
  (∀ n : Byte, (n = 0x00#8 ∨ 9 ≤ n.toNat → exec (.ubits n) State.reset = .next (State.reset.respond State.reset.block (some 0x00#8))) ∧
    (n = 0x00#8 ∨ 8 ≤ n.toNat → exec (.sbits n) State.reset = .next (State.reset.respond State.reset.block (some 0x00#8))))

/-- R90: after reset followed at once by SEED v, `v` not zero, the state is exactly `(v, 0x00, 0)` whatever the default seed
is; so the rest of the run is a function of `v` and the later events alone. -/
def Obligations.SeedAfterResetFixesState : Prop :=
  ∀ (v : Byte) (es : List HostEvent) (k : Nat), v ≠ 0x00#8 →
    step { State.reset with host := .command (encode (.seed v)) :: es } = .next ⟨⟨v, 0x00#8, 0⟩, es, [none]⟩ ∧
    runFor (k + 1) { State.reset with host := .command (encode (.seed v)) :: es } =
      runFor k ⟨⟨v, 0x00#8, 0⟩, es, [none]⟩

/-- R91: with `CNT = c > 0`, `UBITS c` empties the buffer and leaves `S` alone, and the request after it is served from
`XS(S)`; the host knows `c`, since from reset `CNT = (-T) mod 8`. -/
def Obligations.DrainEmptiesBuffer : Prop :=
  (∀ s : State, 0 < s.block.CNT.val →
    ∃ t, exec (.ubits (BitVec.ofNat 8 s.block.CNT.val)) s = .next t ∧ t.block.CNT = 0 ∧ t.block.S = s.block.S ∧
      (s.block.S ≠ 0x00#8 → ∀ n : Byte, 1 ≤ n.toNat → n.toNat ≤ 8 →
        ∃ u, exec (.ubits n) t = .next u ∧ u.block.S = xs Config.hw s.block.S ∧
          u.responses = t.responses ++
            [some (BitVec.ofNat 8 (fieldValue (xs Config.hw s.block.S).getLsbD n.toNat))])) ∧
  (∀ (ws : List CmdWord) (t : State), runFor ws.length (State.reset.withProgram ws) = .next t →
    (t.block.CNT.val : Int) = (-(totalDeclared (ws.map decode) : Int)) % 8)

/-- R92: a late SEED does not clear the buffer. After SEED v with `CNT = c`, the first `c` bits dispensed are the old
buffered bits and the later ones are those of `XS(v)`; the first NEXT after it returns `XS(v)`. -/
def Obligations.LateSeedKeepsBufferedBits : Prop :=
  ∀ (v n : Byte) (s t : State), v ≠ 0x00#8 → 1 ≤ n.toNat → n.toNat ≤ 8 → exec (.seed v) s = .next t →
    (∃ (u : State) (r : Byte), exec (.ubits n) t = .next u ∧ u.responses = t.responses ++ [some r] ∧
      ∀ i, i < n.toNat → r.getLsbD (n.toNat - 1 - i) =
        if i < s.block.CNT.val then s.block.BUF.getLsbD i else (xs Config.hw v).getLsbD (i - s.block.CNT.val)) ∧
    (∃ u, exec .next t = .next u ∧ u.responses = t.responses ++ [some (xs Config.hw v)])

/-- R93: NEXT and the dispenser share `S` but not the buffer. After a NEXT the bits in the buffer are undisturbed and the
next refill loads the byte after the one NEXT returned; after a refill NEXT returns the byte after the refill's. -/
def Obligations.NextTakesByteFromDispenser : Prop :=
  (∀ s t : State, exec .next s = .next t →
    t.responses = s.responses ++ [some (xs Config.hw s.block.S)] ∧ liveBits t.block = liveBits s.block ∧
    (∀ i y, refillByte i t.block = some y → y = xs Config.hw (xs Config.hw s.block.S))) ∧
  (∀ (i : Instr) (s t : State) (y : Byte), refillByte i s.block = some y → exec i s = .next t →
    ∃ u, exec .next t = .next u ∧ u.responses = t.responses ++ [some (xs Config.hw y)])

/-- R97: `UBITS 8` is not NEXT. From an empty buffer both advance `S` once, to the same `y`, and leave the buffer empty;
NEXT returns `y` and `UBITS 8` returns `y` with its bits in reverse order. From a buffer of `c` bits, fewer than 8,
`UBITS 8` returns the `c` buffered bits and then bits of `y`. With the other bit order, most significant bit first, `UBITS 8`
from an empty buffer would return `y` itself. -/
def Obligations.WholeByteRequestIsNotNext : Prop :=
  (∀ s : State, s.block.S ≠ 0x00#8 → s.block.CNT = 0 →
    ∃ (t u : State) (r : Byte), exec .next s = .next t ∧ exec (.ubits 8#8) s = .next u ∧
      t.block.S = xs Config.hw s.block.S ∧ u.block.S = xs Config.hw s.block.S ∧
      t.block.CNT = 0 ∧ u.block.CNT = 0 ∧
      t.responses = s.responses ++ [some (xs Config.hw s.block.S)] ∧ u.responses = s.responses ++ [some r] ∧
      (∀ i, i < 8 → r.getLsbD (7 - i) = (xs Config.hw s.block.S).getLsbD i)) ∧
  (∀ s : State, s.block.S ≠ 0x00#8 → s.block.CNT.val < 8 →
    ∃ (u : State) (r : Byte), exec (.ubits 8#8) s = .next u ∧ u.responses = s.responses ++ [some r] ∧
      ∀ i, i < 8 → r.getLsbD (7 - i) =
        if i < s.block.CNT.val then s.block.BUF.getLsbD i else (xs Config.hw s.block.S).getLsbD (i - s.block.CNT.val)) ∧
  (∀ (c : Config) (b : Block), c.pullOrder = .msbFirst → b.CNT = 0 → (pullBits c 8 b).1 = xs c b.S)

/-- R95: a response of 0 does not identify an invalid request: a valid UBITS or SBITS returns 0x00 whenever the bits it
consumed are all 0, `UBITS 1` whenever the next stream bit is 0, and an invalid one always. -/
def Obligations.ZeroResponseIsAmbiguous : Prop :=
  (∀ (n : Byte) (s t : State), exec (.ubits n) s = .next t →
    (t.responses = s.responses ++ [some 0x00#8] ↔ ∀ i, i < declaredBits (.ubits n) → requestBit s.block i = false)) ∧
  (∀ (n : Byte) (s t : State), exec (.sbits n) s = .next t →
    (t.responses = s.responses ++ [some 0x00#8] ↔ ∀ i, i < declaredBits (.sbits n) → requestBit s.block i = false)) ∧
  (∀ s t : State, exec (.ubits 1#8) s = .next t →
    (t.responses = s.responses ++ [some 0x00#8] ↔ streamBit s.block 0 = false))

/-- R17, R21: the frame of every command. Each adds one response and leaves the host alone; SEED changes `S` only, NEXT `S`
only; a valid request changes `S` only if it refills; an invalid one changes no register. -/
def Obligations.FrameOfEveryCommand : Prop :=
  ∀ (i : Instr) (s t : State), exec i s = .next t →
    t.host = s.host ∧ (∃ r, t.responses = s.responses ++ [r] ∧ (r = none ↔ ∃ v, i = .seed v)) ∧
    (∀ v, i = .seed v → t.block = ⟨v, s.block.BUF, s.block.CNT⟩) ∧
    (i = .next → t.block = ⟨xs Config.hw s.block.S, s.block.BUF, s.block.CNT⟩) ∧
    (∀ n, i = .ubits n ∨ i = .sbits n → (declaredBits i = 0 → t.block = s.block) ∧
      (declaredBits i ≤ s.block.CNT.val → t.block.S = s.block.S) ∧
      (0 < declaredBits i → t.block = afterRequest s.block (declaredBits i)))

/-- R16, R31: `(S, BUF, CNT)` is the complete state. Two machines with the same block answer every command with the same
outcome: the same refusal, or the same next block and the same response. -/
def Obligations.OutcomeDependsOnBlockOnly : Prop :=
  ∀ (i : Instr) (s s' : State), s.block = s'.block →
    (∀ t, exec i s = .next t → ∃ r, t.responses = s.responses ++ [r] ∧ exec i s' = .next (s'.respond t.block r)) ∧
    (∀ r, exec i s = .refused r → exec i s' = .refused r)

/-- R30: idempotency. SEED twice leaves the block as SEED once; an invalid request changes nothing at all; NEXT twice, or a
valid request twice, leaves another block than once. -/
def Obligations.Idempotency : Prop :=
  ∀ (i : Instr) (s t u : State), s.block.S ≠ 0x00#8 → exec i s = .next t → exec i t = .next u →
    ((∃ v, i = .seed v) → u.block = t.block) ∧
    (i.isRequest = true → declaredBits i = 0 → t.block = s.block ∧ u.block = s.block) ∧
    (i = .next → u.block ≠ t.block) ∧
    (0 < declaredBits i → u.block ≠ t.block)

/-- R38, R39, R41, U4: what the pins carry. A presented opcode and operand are the command word with `op` in bits 9:8 and
`arg` in bits 7:0; without `cmd_valid` there is no command; `rst` resets whatever is presented (log 8); a response is on
`rsp_data`, and `rsp_valid` marks every completion. -/
def Obligations.PinsCarryTheCommand : Prop :=
  (∀ p : InputPins, p.rst = true → p.event = .reset) ∧
  (∀ p : InputPins, p.rst = false → p.cmdValid = false → p.event = .noCommand) ∧
  (∀ p : InputPins, p.rst = false → p.cmdValid = true →
    ∃ w, p.event = .command w ∧ w.toNat = p.cmdOp.toNat * 256 + p.cmdArg.toNat ∧ opField w = p.cmdOp ∧
      argField w = p.cmdArg) ∧
  (∀ (k : Nat) (r : Response), (responsePins k r).rspValid = true ∧ ∀ v, r = some v → (responsePins k r).rspData = v)
end

