-- ==== Sys2Proof/Laws/Bits.lean ====
section
/-! SUPPORT. The bit operations and the transform, bit by bit (R6, R49). -/
namespace Sys2Proof.Machine

@[simp] theorem shl8_getLsbD (v : Byte) (k i : Nat) :
    (shl8 v k).getLsbD i = (decide (i < 8) && !decide (i < k) && v.getLsbD (i - k)) := by simp [shl8]

@[simp] theorem shr8_getLsbD (v : Byte) (k i : Nat) : (shr8 v k).getLsbD i = v.getLsbD (k + i) := by simp [shr8]

theorem shl8_toNat (v : Byte) (k : Nat) : (shl8 v k).toNat = v.toNat * 2 ^ k % 256 := by
  simp [shl8, Nat.shiftLeft_eq]

theorem shr8_toNat (v : Byte) (k : Nat) : (shr8 v k).toNat = v.toNat / 2 ^ k := by
  simp [shr8, Nat.shiftRight_eq_div_pow]

/-- A pulled bit enters at bit 0 and every bit before it moves up (R60). -/
theorem accumulate_getLsbD (r : Byte) (b : Bool) (i : Nat) (h : i < 8) :
    (shl8 r 1 ||| zext8 b).getLsbD i = if i = 0 then b else r.getLsbD (i - 1) := by
  have hz : ∀ j, (zext8 b).getLsbD j = (decide (j = 0) && b) := by
    intro j
    cases b
    · simp [zext8]
    · have e : zext8 true = 1#8 := by decide
      rw [e, BitVec.getLsbD_one]
      simp
  rw [BitVec.getLsbD_or, hz, shl8_getLsbD]
  cases i with
  | zero => simp
  | succ i => simp [h]

/-- The accumulator as a number (R60): nothing is lost while it holds fewer than 8 bits. -/
theorem accumulate_toNat (r : Byte) (b : Bool) (h : r.toNat < 128) :
    (shl8 r 1 ||| zext8 b).toNat = 2 * r.toNat + b.toNat := by
  have hr : (shl8 r 1).toNat = 2 * r.toNat := by rw [shl8_toNat]; omega
  cases b
  · simp [zext8, hr]
  · have hz : zext8 true = 1#8 := by decide
    rw [BitVec.toNat_or, hr, hz]
    have := Nat.two_pow_add_eq_or_of_lt (i := 1) (b := 1) (by decide) r.toNat
    simp only [Nat.pow_one, BitVec.toNat_ofNat] at this ⊢
    simpa using this.symm

/-- The transform of the hardware (R49). -/
theorem xs_hw (x : Byte) :
    xs Config.hw x =
      ((x ^^^ x <<< 7) ^^^ (x ^^^ x <<< 7) >>> 5) ^^^ ((x ^^^ x <<< 7) ^^^ (x ^^^ x <<< 7) >>> 5) <<< 3 := rfl

/-- A left shift-and-XOR step can be undone from the low end, so it is injective (R50). -/
theorem shl8_step_injective (k : Nat) (hk : 1 ≤ k) : Function.Injective (fun x : Byte => x ^^^ shl8 x k) := by
  intro x y h
  apply BitVec.eq_of_getLsbD_eq
  intro i hi
  induction i using Nat.strong_induction_on with
  | _ i ih =>
    have hb := congrArg (fun v => BitVec.getLsbD v i) h
    simp only [BitVec.getLsbD_xor, shl8_getLsbD] at hb
    by_cases hik : i < k
    · simpa [hik] using hb
    · simpa [hik, hi, ih (i - k) (by omega) (by omega)] using hb

/-- A right shift-and-XOR step can be undone from the high end, so it is injective (R50). -/
theorem shr8_step_injective (k : Nat) (hk : 1 ≤ k) : Function.Injective (fun x : Byte => x ^^^ shr8 x k) := by
  intro x y h
  apply BitVec.eq_of_getLsbD_eq
  intro i hi
  generalize hj : 8 - i = j
  induction j using Nat.strong_induction_on generalizing i with
  | _ j ih =>
    have hb := congrArg (fun v => BitVec.getLsbD v i) h
    simp only [BitVec.getLsbD_xor, shr8_getLsbD] at hb
    by_cases hik : k + i < 8
    · simpa [ih (8 - (k + i)) (by omega) (k + i) hik rfl] using hb
    · simpa [BitVec.getLsbD_of_ge _ _ (Nat.le_of_not_lt hik)] using hb

end Sys2Proof.Machine
end

