-- ==== Sys2Proof/Laws/State.lean ====
section
/-! SUPPORT. One lemma per field per update of a state, of the block and of the hardware's configuration; all hold by
definition. -/
namespace Sys2Proof

@[simp] theorem Config.hw_shA : Config.hw.shA = 7 := rfl
@[simp] theorem Config.hw_shB : Config.hw.shB = 5 := rfl
@[simp] theorem Config.hw_shC : Config.hw.shC = 3 := rfl
@[simp] theorem Config.hw_defaultSeed : Config.hw.defaultSeed = Config.hwDefaultSeed := rfl
@[simp] theorem Config.hw_pullOrder : Config.hw.pullOrder = .lsbFirst := rfl
@[simp] theorem Config.hw_signPosition : Config.hw.signPosition = .firstPulled := rfl
@[simp] theorem Config.hw_resetCnt : Config.hw.resetCnt = 0 := rfl
@[simp] theorem Config.hw_resetBuf : Config.hw.resetBuf = 0x00#8 := rfl

/-- The default seed is not zero, whatever it is (U3). -/
theorem Config.hwDefaultSeed_ne_zero : Config.hwDefaultSeed ≠ 0x00#8 := by decide

namespace Machine

variable (s : State) (b : Block) (r : Response) (rest : List HostEvent) (ws : List CmdWord) (c : Config)

@[simp] theorem State.respond_block : (s.respond b r).block = b := rfl
@[simp] theorem State.respond_host : (s.respond b r).host = s.host := rfl
@[simp] theorem State.respond_responses : (s.respond b r).responses = s.responses ++ [r] := rfl

@[simp] theorem State.awaiting_block : (s.awaiting rest).block = s.block := rfl
@[simp] theorem State.awaiting_host : (s.awaiting rest).host = rest := rfl
@[simp] theorem State.awaiting_responses : (s.awaiting rest).responses = s.responses := rfl

@[simp] theorem State.withProgram_block : (s.withProgram ws).block = s.block := rfl
@[simp] theorem State.withProgram_host : (s.withProgram ws).host = ws.map .command := rfl
@[simp] theorem State.withProgram_responses : (s.withProgram ws).responses = s.responses := rfl

@[simp] theorem State.withFetchWord_block (nbits w : Nat) : (s.withFetchWord nbits w).block = s.block := rfl
@[simp] theorem State.withFetchWord_responses (nbits w : Nat) :
    (s.withFetchWord nbits w).responses = s.responses := rfl

@[simp] theorem State.reset_host : State.reset.host = [] := rfl
@[simp] theorem State.reset_responses : State.reset.responses = [] := rfl
@[simp] theorem State.reset_S : State.reset.block.S = Config.hwDefaultSeed := rfl
@[simp] theorem State.reset_BUF : State.reset.block.BUF = 0x00#8 := rfl
@[simp] theorem State.reset_CNT : State.reset.block.CNT = 0 := rfl

@[simp] theorem applyReset_block : (applyReset s).block = State.reset.block := rfl
@[simp] theorem applyReset_host : (applyReset s).host = s.host := rfl
@[simp] theorem applyReset_responses : (applyReset s).responses = [] := rfl

@[simp] theorem idle_eq : idle s = s := rfl

@[simp] theorem advance_S : (advance c b).S = xs c b.S := rfl
@[simp] theorem advance_BUF : (advance c b).BUF = b.BUF := rfl
@[simp] theorem advance_CNT : (advance c b).CNT = b.CNT := rfl

@[simp] theorem refill_S : (refill c b).S = xs c b.S := rfl
@[simp] theorem refill_BUF : (refill c b).BUF = xs c b.S := rfl
@[simp] theorem refill_CNT : (refill c b).CNT = 8 := rfl

@[simp] theorem decCnt_val (n : Fin 9) : (decCnt n).val = n.val - 1 := rfl

end Machine
end Sys2Proof
end

