-- ==== Sys2Proof/Laws/Ops.lean ====
section
/-! SUPPORT. What each shared operation can do, said once (R59, R60, R74). -/
namespace Sys2Proof.Machine

theorem fin9_eq_zero_iff (n : Fin 9) : n = 0 ↔ n.val = 0 := by omega

@[simp] theorem refillIfEmpty_of_empty (c : Config) (b : Block) (h : b.CNT = 0) : refillIfEmpty c b = refill c b := by
  simp [refillIfEmpty, h]

@[simp] theorem refillIfEmpty_of_nonempty (c : Config) (b : Block) (h : b.CNT ≠ 0) : refillIfEmpty c b = b := by
  simp [refillIfEmpty, h]

/-- After the refill test the buffer is not empty, so a pull always finds a bit (R62). -/
theorem refillIfEmpty_CNT_pos (c : Config) (b : Block) : 1 ≤ (refillIfEmpty c b).CNT.val := by
  by_cases h : b.CNT = 0
  · simp [h]
  · rw [refillIfEmpty_of_nonempty c b h]
    have := (not_congr (fin9_eq_zero_iff b.CNT)).mp h
    omega

/-- `PullBit` on an empty buffer (R59). -/
theorem pullBit_of_empty (b : Block) (h : b.CNT = 0) :
    pullBit Config.hw b =
      ((xs Config.hw b.S).getLsbD 0, ⟨xs Config.hw b.S, shr8 (xs Config.hw b.S) 1, 7⟩) := by
  simp only [pullBit, refillIfEmpty_of_empty Config.hw b h]
  rfl

/-- `PullBit` on a buffer that holds a bit (R59). -/
theorem pullBit_of_nonempty (b : Block) (h : b.CNT ≠ 0) :
    pullBit Config.hw b = (b.BUF.getLsbD 0, ⟨b.S, shr8 b.BUF 1, decCnt b.CNT⟩) := by
  simp only [pullBit, refillIfEmpty_of_nonempty Config.hw b h]
  rfl

/-- After `PullBit`, `CNT` is between 0 and 7 (R59). -/
theorem pullBit_CNT_le (c : Config) (b : Block) : (pullBit c b).2.CNT.val ≤ 7 := by
  unfold pullBit takeBit
  split <;> simp <;> omega

@[simp] theorem pullBitsFrom_zero (c : Config) (r : Byte) (b : Block) : pullBitsFrom c 0 r b = (r, b) := rfl

theorem pullBitsFrom_succ (c : Config) (k : Nat) (r : Byte) (b : Block) :
    pullBitsFrom c (k + 1) r b = pullBitsFrom c k (shl8 r 1 ||| zext8 (pullBit c b).1) (pullBit c b).2 := rfl

/-- Pulling `j + k` bits is pulling `j` and then `k` more. -/
theorem pullBitsFrom_add (c : Config) (j k : Nat) (r : Byte) (b : Block) :
    pullBitsFrom c (j + k) r b = pullBitsFrom c k (pullBitsFrom c j r b).1 (pullBitsFrom c j r b).2 := by
  induction j generalizing r b with
  | zero => simp
  | succ j ih => rw [Nat.succ_add, pullBitsFrom_succ, pullBitsFrom_succ, ih]

/-- What serving a request can do: answer the finished field, or be refused where a refill meets a zero Generator
State. -/
theorem dispense_cases (k : Nat) (finish : Byte → Byte) (s : State) :
    (s.block.CNT.val < k ∧ s.block.S = 0x00#8 ∧ dispense k finish s = .refused .zeroState) ∨
    ((k ≤ s.block.CNT.val ∨ s.block.S ≠ 0x00#8) ∧
      dispense k finish s =
        .next (s.respond (pullBits Config.hw k s.block).2 (some (finish (pullBits Config.hw k s.block).1)))) := by
  unfold dispense needsRefill
  by_cases h : s.block.CNT.val < k
  · by_cases hs : s.block.S = 0x00#8
    · exact .inl ⟨h, hs, by simp [h, hs]⟩
    · have hb : (s.block.S == 0x00#8) = false := beq_eq_false_iff_ne.mpr hs
      exact .inr ⟨.inr hs, by rw [hb, Bool.and_false]; rfl⟩
  · exact .inr ⟨.inl (by omega), by simp [h]⟩

theorem dispense_next (k : Nat) (finish : Byte → Byte) (s : State) (h : k ≤ s.block.CNT.val ∨ s.block.S ≠ 0x00#8) :
    dispense k finish s =
      .next (s.respond (pullBits Config.hw k s.block).2 (some (finish (pullBits Config.hw k s.block).1))) := by
  obtain ⟨h1, h2, -⟩ | ⟨-, h1⟩ := dispense_cases k finish s
  · rcases h with h | h
    · omega
    · exact absurd h2 h
  · exact h1

/-- The width test, in the words of R74. -/
theorem invalidWidth_iff (max : Nat) (n : Byte) : invalidWidth max n = true ↔ n.toNat = 0 ∨ max < n.toNat := by
  simp [invalidWidth]

end Sys2Proof.Machine
end

