-- ==== Sys2Proof/Laws/Exec.lean ====
section
/-! SUPPORT. What each command can do, said once: if it answers a next state, which one; otherwise why not. -/
namespace Sys2Proof.Machine

theorem execSeed_cases (v : Byte) (s : State) :
    (v = 0x00#8 ∧ execSeed v s = .refused .zeroSeed) ∨
    (v ≠ 0x00#8 ∧ execSeed v s = .next (s.respond ⟨v, s.block.BUF, s.block.CNT⟩ none)) := by
  by_cases h : v = 0x00#8
  · exact .inl ⟨h, by simp [execSeed, h]⟩
  · exact .inr ⟨h, by simp [execSeed, h]⟩

theorem execNext_cases (s : State) :
    (s.block.S = 0x00#8 ∧ execNext s = .refused .zeroState) ∨
    (s.block.S ≠ 0x00#8 ∧ execNext s =
      .next (s.respond ⟨xs Config.hw s.block.S, s.block.BUF, s.block.CNT⟩ (some (xs Config.hw s.block.S)))) := by
  by_cases h : s.block.S = 0x00#8
  · exact .inl ⟨h, by simp [execNext, h]⟩
  · exact .inr ⟨h, by simp [execNext, h, advance]⟩

theorem execUbits_cases (n : Byte) (s : State) :
    ((n.toNat = 0 ∨ 8 < n.toNat) ∧ execUbits n s = .next (s.respond s.block (some 0x00#8))) ∨
    ((1 ≤ n.toNat ∧ n.toNat ≤ 8) ∧ execUbits n s = dispense n.toNat unsignedResult s) := by
  by_cases h : invalidWidth Config.hw.umax n = true
  · exact .inl ⟨(invalidWidth_iff 8 n).mp h, by simp [execUbits, h, rejectRequest]⟩
  · have := (not_congr (invalidWidth_iff 8 n)).mp h
    exact .inr ⟨by omega, by simp [execUbits, h, bitCount]⟩

theorem execSbits_cases (n : Byte) (s : State) :
    ((n.toNat = 0 ∨ 7 < n.toNat) ∧ execSbits n s = .next (s.respond s.block (some 0x00#8))) ∨
    ((1 ≤ n.toNat ∧ n.toNat ≤ 7) ∧
      execSbits n s = dispense (n.toNat + 1) (signedResult Config.hw n.toNat) s) := by
  by_cases h : invalidWidth Config.hw.smax n = true
  · exact .inl ⟨(invalidWidth_iff 7 n).mp h, by simp [execSbits, h, rejectRequest]⟩
  · have := (not_congr (invalidWidth_iff 7 n)).mp h
    exact .inr ⟨by omega, by simp [execSbits, h, bitCount]⟩

@[simp] theorem signedResult_hw (n : Nat) (t : Byte) : signedResult Config.hw n t = sext8 (n + 1) t := rfl

@[simp] theorem exec_seed (v : Byte) (s : State) : exec (.seed v) s = execSeed v s := rfl
@[simp] theorem exec_next (s : State) : exec .next s = execNext s := rfl
@[simp] theorem exec_ubits (n : Byte) (s : State) : exec (.ubits n) s = execUbits n s := rfl
@[simp] theorem exec_sbits (n : Byte) (s : State) : exec (.sbits n) s = execSbits n s := rfl

/-- If a command answers a next state, it has ended with one response and has left the host alone (R7, R10). -/
theorem exec_next_respond (i : Instr) (s t : State) (h : exec i s = .next t) :
    ∃ r, t = s.respond t.block r := by
  have hd : ∀ k f, dispense k f s = .next t → ∃ r, t = s.respond t.block r := by
    intro k f hk
    obtain ⟨-, -, e⟩ | ⟨-, e⟩ := dispense_cases k f s <;> rw [e] at hk <;> cases hk
    exact ⟨_, rfl⟩
  cases i with
  | seed v => obtain ⟨-, e⟩ | ⟨-, e⟩ := execSeed_cases v s <;> rw [exec_seed, e] at h <;> cases h; exact ⟨_, rfl⟩
  | next => obtain ⟨-, e⟩ | ⟨-, e⟩ := execNext_cases s <;> rw [exec_next, e] at h <;> cases h; exact ⟨_, rfl⟩
  | ubits n =>
    obtain ⟨-, e⟩ | ⟨-, e⟩ := execUbits_cases n s <;> rw [exec_ubits, e] at h
    · cases h; exact ⟨_, rfl⟩
    · exact hd _ _ h
  | sbits n =>
    obtain ⟨-, e⟩ | ⟨-, e⟩ := execSbits_cases n s <;> rw [exec_sbits, e] at h
    · cases h; exact ⟨_, rfl⟩
    · exact hd _ _ h

end Sys2Proof.Machine
end

