-- ==== Sys2Proof/Laws/PerInstr.lean ====
section
/-! SUPPORT. What is proved of each command as a term: the family Opcode, the opcode and the operand field of its
word (R37, R39). -/
namespace Sys2Proof.Laws

/-- The opcode of a command (R37). -/
def opcodeOf : Instr → BitVec 2
  | .seed _ => 0b00#2
  | .next => 0b01#2
  | .ubits _ => 0b10#2
  | .sbits _ => 0b11#2

/-- The operand of a command; NEXT's canonical field is 0 (R44). -/
def operandOf : Instr → Byte
  | .seed v => v
  | .next => 0x00#8
  | .ubits n => n
  | .sbits n => n

/-- The command's word is `op * 256 + arg` (R39), with the opcode in bits 9:8 and the operand in bits 7:0. -/
def Opcode.Statement (i : Instr) : Prop :=
  (encode i).toNat = (opcodeOf i).toNat * 256 + (operandOf i).toNat ∧
  opField (encode i) = opcodeOf i ∧ argField (encode i) = operandOf i

/-- The value and the fields of a word made of an opcode and an operand (R39). -/
theorem cmdWord_fields (op : BitVec 2) (arg : Byte) :
    (cmdWord op arg).toNat = op.toNat * 256 + arg.toNat ∧ opField (cmdWord op arg) = op ∧
      argField (cmdWord op arg) = arg := by
  have h1 := op.isLt
  have h2 := arg.isLt
  have hv : (cmdWord op arg).toNat = op.toNat * 256 + arg.toNat := by
    rw [cmdWord, BitVec.toNat_append, Nat.shiftLeft_eq, Nat.mul_comm op.toNat, ← Nat.two_pow_add_eq_or_of_lt h2]
  refine ⟨hv, ?_, ?_⟩
  · apply BitVec.eq_of_toNat_eq
    simp only [opField, BitVec.extractLsb'_toNat, hv, Nat.shiftRight_eq_div_pow]
    omega
  · apply BitVec.eq_of_toNat_eq
    simp only [argField, BitVec.extractLsb'_toNat, hv, Nat.shiftRight_eq_div_pow]
    omega

theorem Opcode.seed (v : Byte) : Opcode.Statement (.seed v) := cmdWord_fields _ _
theorem Opcode.next : Opcode.Statement .next := cmdWord_fields _ _
theorem Opcode.ubits (n : Byte) : Opcode.Statement (.ubits n) := cmdWord_fields _ _
theorem Opcode.sbits (n : Byte) : Opcode.Statement (.sbits n) := cmdWord_fields _ _

end Sys2Proof.Laws
end

