-- ==== Sys2Proof/Laws/Pull.lean ====
section
/-! SUPPORT. `PullBits` in closed form (R63): what a request of at most 8 bits answers and leaves. -/
namespace Sys2Proof.Machine

theorem Block.ext_val (b b' : Block) (hS : b.S = b'.S) (hB : b.BUF = b'.BUF) (hC : b.CNT.val = b'.CNT.val) :
    b = b' := by
  cases b
  cases b'
  simp only [Block.mk.injEq] at *
  exact ⟨hS, hB, Fin.ext hC⟩

@[simp] theorem afterRequest_zero (b : Block) : afterRequest b 0 = b := by
  apply Block.ext_val <;> simp [afterRequest]

/-- The next bit after a request of `k` bits is bit `k` of the longer request (R59, R63). -/
theorem pullBit_afterRequest (b : Block) (k : Nat) (hk : k ≤ 7) :
    pullBit Config.hw (afterRequest b k) = (requestBit b k, afterRequest b (k + 1)) := by
  by_cases h1 : k < b.CNT.val
  · have hne : (afterRequest b k).CNT ≠ 0 := by
      rw [Ne, fin9_eq_zero_iff]
      simp [afterRequest, Nat.le_of_lt h1]
      omega
    rw [pullBit_of_nonempty _ hne]
    refine Prod.ext ?_ (Block.ext_val _ _ ?_ ?_ ?_)
    · simp [afterRequest, requestBit, Nat.le_of_lt h1, h1]
    · simp [afterRequest, Nat.le_of_lt h1, Nat.succ_le_of_lt h1]
    · simp [afterRequest, Nat.le_of_lt h1, Nat.succ_le_of_lt h1, shr8, BitVec.shiftRight_add]
    · simp [afterRequest, Nat.le_of_lt h1, Nat.succ_le_of_lt h1]
      omega
  · by_cases h2 : k = b.CNT.val
    · have he : (afterRequest b k).CNT = 0 := by
        rw [fin9_eq_zero_iff]
        simp [afterRequest, h2]
      rw [pullBit_of_empty _ he]
      refine Prod.ext ?_ (Block.ext_val _ _ ?_ ?_ ?_) <;> simp [afterRequest, requestBit, h2, shr8]
    · have h3 : ¬ k ≤ b.CNT.val := by omega
      have h4 : ¬ k + 1 ≤ b.CNT.val := by omega
      have h5 : k + 1 - b.CNT.val = k - b.CNT.val + 1 := by omega
      have hne : (afterRequest b k).CNT ≠ 0 := by
        rw [Ne, fin9_eq_zero_iff]
        simp [afterRequest, h3]
        omega
      rw [pullBit_of_nonempty _ hne]
      refine Prod.ext ?_ (Block.ext_val _ _ ?_ ?_ ?_)
      · simp [afterRequest, requestBit, h1, h3]
      · simp [afterRequest, h3, h4]
      · simp [afterRequest, h3, h4, h5, shr8, BitVec.shiftRight_add]
      · simp [afterRequest, h3, h4, h5]
        omega

theorem fieldValue_lt (p : Nat → Bool) (k : Nat) : fieldValue p k < 2 ^ k := by
  induction k with
  | zero => simp [fieldValue]
  | succ k ih =>
    have := Bool.toNat_le (p k)
    simp only [fieldValue, Nat.pow_succ]
    omega

/-- `PullBits(k)`, `k` at most 8 (R60, R63): the field of the next `k` bits, and the block after them. -/
theorem pullBits_eq (b : Block) (k : Nat) (hk : k ≤ 8) :
    pullBits Config.hw k b = (BitVec.ofNat 8 (fieldValue (requestBit b) k), afterRequest b k) := by
  induction k with
  | zero => simp [pullBits, fieldValue]
  | succ k ih =>
    have ih := ih (by omega)
    rw [pullBits, pullBitsFrom_add, ← pullBits, ih, pullBitsFrom_succ, pullBitsFrom_zero,
      pullBit_afterRequest b k (by omega)]
    have hlt := fieldValue_lt (requestBit b) k
    have h7 : 2 ^ k ≤ 128 := Nat.pow_le_pow_right (by decide) (by omega : k ≤ 7)
    refine Prod.ext (BitVec.eq_of_toNat_eq ?_) rfl
    have hr : (BitVec.ofNat 8 (fieldValue (requestBit b) k)).toNat = fieldValue (requestBit b) k := by
      rw [BitVec.toNat_ofNat]
      exact Nat.mod_eq_of_lt (by omega)
    simp only [accumulate_toNat _ _ (hr.trans_lt (by omega)), hr, BitVec.toNat_ofNat, fieldValue]
    have := Bool.toNat_le (requestBit b k)
    omega

/-- Bit `i` of a field of `k` bits: the bits stand in the order pulled, the first one highest (R60). -/
theorem fieldValue_testBit (p : Nat → Bool) (k i : Nat) :
    (fieldValue p k).testBit i = (decide (i < k) && p (k - 1 - i)) := by
  induction k generalizing i with
  | zero => simp [fieldValue]
  | succ k ih =>
    cases i with
    | zero =>
      rw [fieldValue, Nat.testBit_zero]
      cases h : p k <;> simp [h]
    | succ i =>
      have hdiv : (2 * fieldValue p k + (p k).toNat) / 2 = fieldValue p k := by
        have := Bool.toNat_le (p k)
        omega
      rw [fieldValue, Nat.testBit_succ, hdiv, ih]
      simp [Nat.sub_sub, Nat.add_comm]

end Sys2Proof.Machine
end

