-- ==== Sys2Proof/Laws/Step.lean ====
section
/-! SUPPORT. What a step can do, one lemma for each event of the host, and how a run of steps unfolds. -/
namespace Sys2Proof.Machine

theorem step_of_nil (s : State) (h : s.host = []) : step s = .next s := by simp [step, h]

theorem step_of_noCommand (s : State) (rest : List HostEvent) (h : s.host = .noCommand :: rest) :
    step s = .next (s.awaiting rest) := by simp [step, h]

theorem step_of_reset (s : State) (rest : List HostEvent) (h : s.host = .reset :: rest) :
    step s = .next (State.reset.awaiting rest) := by
  simp only [step, h]
  rfl

theorem step_of_concurrent (s : State) (w₁ w₂ : CmdWord) (rest : List HostEvent)
    (h : s.host = .concurrent w₁ w₂ :: rest) : step s = .refused .concurrentAccess := by simp [step, h]

/-- A step that answers a next state: nothing presented, a reset, or a command that answers it. -/
theorem step_next_cases (s t : State) (h : step s = .next t) :
    (s.host = [] ∧ t = s) ∨ (∃ rest, s.host = .noCommand :: rest ∧ t = s.awaiting rest) ∨
    (∃ rest, s.host = .reset :: rest ∧ t = State.reset.awaiting rest) ∨
    (∃ w rest, s.host = .command w :: rest ∧ exec (decode w) (s.awaiting rest) = .next t) := by
  match hh : s.host with
  | [] => rw [step_of_nil s hh] at h; cases h; exact .inl ⟨rfl, rfl⟩
  | .noCommand :: rest => rw [step_of_noCommand s rest hh] at h; cases h; exact .inr (.inl ⟨rest, rfl, rfl⟩)
  | .reset :: rest => rw [step_of_reset s rest hh] at h; cases h; exact .inr (.inr (.inl ⟨rest, rfl, rfl⟩))
  | .command w :: rest => simp only [step, hh] at h; exact .inr (.inr (.inr ⟨w, rest, rfl, h⟩))
  | .concurrent w₁ w₂ :: rest => rw [step_of_concurrent s w₁ w₂ rest hh] at h; cases h

@[simp] theorem runFor_zero (s : State) : runFor 0 s = .next s := rfl

theorem runFor_succ_of_next (k : Nat) (s t : State) (h : step s = .next t) : runFor (k + 1) s = runFor k t := by
  simp [runFor, h]

theorem runFor_succ_of_refused (k : Nat) (s : State) (r : Refusal) (h : step s = .refused r) :
    runFor (k + 1) s = .refused r := by simp [runFor, h]

/-- `runFor` is the host's run of the machine. -/
theorem runFor_eq_core_run (k : Nat) (s : State) : runFor k s = Host.Core.run core k s := by
  induction k generalizing s with
  | zero => rfl
  | succ k ih =>
    match h : step s with
    | .next t =>
      have e : core.step s = .next t := h
      rw [runFor_succ_of_next k s t h, ih t]
      simp only [Host.Core.run, e]
      rfl
    | .refused r =>
      have e : core.step s = .refused r := h
      rw [runFor_succ_of_refused k s r h]
      simp only [Host.Core.run, e]
      rfl
    | .fault f => cases f

/-- A run of at least one step that gives a next state took a first step. -/
theorem runFor_succ_next (k : Nat) (s t : State) (h : runFor (k + 1) s = .next t) :
    ∃ u, step s = .next u ∧ runFor k u = .next t := by
  match hs : step s with
  | .next u => exact ⟨u, rfl, by rw [← runFor_succ_of_next k s u hs]; exact h⟩
  | .refused r => rw [runFor_succ_of_refused k s r hs] at h; cases h
  | .fault f => cases f

/-- An invariant that every step keeps holds after any number of steps. -/
theorem runFor_keeps (P : State → Prop) (hstep : ∀ s t, P s → step s = .next t → P t) (k : Nat) (s t : State)
    (hs : P s) (h : runFor k s = .next t) : P t := by
  induction k generalizing s with
  | zero => cases h; exact hs
  | succ k ih =>
    obtain ⟨u, hu, ht⟩ := runFor_succ_next k s t h
    exact ih u (hstep s u hs hu) ht

end Sys2Proof.Machine
end

