-- ==== Sys2Proof/Tests/Slice0.lean ====
section
/-! SUPPORT. The model's own tests. Expected results are those of `spec/95_test_vectors.md` (a vector's or example's id
stands in each comment) or worked out by hand from the rule named. After them, for every statement with hypotheses, a
witness that meets them. -/
namespace Sys2Proof.Tests
open Sys2Proof.Machine

/-! ## Helpers -/

/-- A machine whose host has nothing to do and that has answered nothing. -/
def at0 (S BUF : Byte) (CNT : Fin 9) : State := ⟨⟨S, BUF, CNT⟩, [], []⟩

/-- The values of R5's table, with 1 for the default seed and 0 for the latency, which it leaves open. -/
def config0 : Config := ⟨8, 4, 8, 7, 7, 5, 3, 1, .lsbFirst, .firstPulled, 0, 0, 10, 0⟩

/-- The outcome is exactly this next state. -/
def answers (o : Host.Outcome State Fault Refusal) (t : State) : Bool :=
  match o with
  | .next u => u == t
  | .fault _ => false
  | .refused _ => false

/-- The outcome is exactly this refusal. -/
def refuses (o : Host.Outcome State Fault Refusal) (r : Refusal) : Bool :=
  match o with
  | .next _ => false
  | .fault _ => false
  | .refused q => q == r

theorem next_of_answers (o : Host.Outcome State Fault Refusal) (t : State) (h : answers o t = true) : o = .next t := by
  cases o with
  | next u => rw [eq_of_beq h]
  | fault f => cases f
  | refused r => cases h

/-- One vector of the spec: from a block, one step on a presented word gives this response and this block. -/
def vector (before : Block) (w : CmdWord) (r : Response) (after : Block) : Bool :=
  answers (step ⟨before, [.command w], []⟩) ⟨after, [], [r]⟩

/-! ## WellFormed: each check refuses an ill-formed term -/

theorem test_wf_every_command : Instr.wf (.seed 0) = true ∧ Instr.wf (.ubits 255) = true := by decide
theorem test_wf_seed_too_large : Source.wf ⟨.seed, some 256⟩ = false := by decide
theorem test_wf_ubits_too_large : Source.wf ⟨.ubits, some 256⟩ = false := by decide
theorem test_wf_sbits_too_large : Source.wf ⟨.sbits, some 300⟩ = false := by decide
theorem test_wf_seed_without_operand : Source.wf ⟨.seed, none⟩ = false := by decide
theorem test_wf_ubits_without_operand : Source.wf ⟨.ubits, none⟩ = false := by decide
theorem test_wf_sbits_without_operand : Source.wf ⟨.sbits, none⟩ = false := by decide
theorem test_wf_next_with_operand : Source.wf ⟨.next, some 0⟩ = false := by decide
theorem test_wf_config_zero_seed : Config.wf { config0 with defaultSeed := 0 } = false := by decide
theorem test_wf_config_distance : Config.wf { config0 with shA := 0 } = false ∧
    Config.wf { config0 with shB := 8 } = false ∧ Config.wf { config0 with shC := 0 } = false := by decide
theorem test_wf_config_sizes : Config.wf { config0 with w := 16 } = false ∧
    Config.wf { config0 with cntW := 3 } = false ∧ Config.wf { config0 with umax := 9 } = false ∧
    Config.wf { config0 with smax := 8 } = false ∧ Config.wf { config0 with cmdW := 16 } = false := by decide
theorem test_wf_config_hw : Config.hw.wf = true := by decide

/-- R5: the widths in the record are those of the types, and `CNT_W` bits hold 0 to 8. -/
theorem test_config_widths : Byte = BitVec Config.hw.w ∧ CmdWord = BitVec Config.hw.cmdW ∧
    (∀ n : Fin 9, n.val < 2 ^ Config.hw.cntW) := ⟨rfl, rfl, by decide⟩

/-! ## Decoding: words written out from R39 (`op` in bits 9:8, `arg` in bits 7:0) -/

theorem test_decode_seed : decode 0b0011001011#10 = .seed 0xCB#8 := by decide
theorem test_decode_seed_zero : decode 0b0000000000#10 = .seed 0x00#8 := by decide
theorem test_decode_next : decode 0b0100000000#10 = .next ∧ decode 0b0101010101#10 = .next := by decide
theorem test_decode_ubits : decode 0b1000000011#10 = .ubits 3#8 ∧ decode 0b1010000000#10 = .ubits 128#8 := by decide
theorem test_decode_sbits : decode 0b1100000111#10 = .sbits 7#8 ∧ decode 0b1111111111#10 = .sbits 255#8 := by decide
theorem test_encode_words : encode (.seed 1) = 0x001#10 ∧ encode .next = 0x100#10 ∧ encode (.ubits 3) = 0x203#10 ∧
    encode (.sbits 2) = 0x302#10 := by decide
theorem test_table_word : decodeTableWord 10 0x302 = some (.sbits 2) ∧ decodeTableWord 16 0x302 = some (.sbits 2) ∧
    decodeTableWord 16 0x400 = none := by decide

/-! ## The transform and the bit operations -/

/-- Table T2 (`95_test_vectors.md` section 2). -/
def tableT2 : List Nat :=
  [0x00, 0xAD, 0x12, 0xBF, 0x24, 0x89, 0x36, 0x9B, 0x48, 0xE5, 0x5A, 0xF7, 0x6C, 0xC1, 0x7E, 0xD3] ++
  [0x90, 0x3D, 0x82, 0x2F, 0xB4, 0x19, 0xA6, 0x0B, 0xD8, 0x75, 0xCA, 0x67, 0xFC, 0x51, 0xEE, 0x43] ++
  [0x29, 0x84, 0x3B, 0x96, 0x0D, 0xA0, 0x1F, 0xB2, 0x61, 0xCC, 0x73, 0xDE, 0x45, 0xE8, 0x57, 0xFA] ++
  [0xB9, 0x14, 0xAB, 0x06, 0x9D, 0x30, 0x8F, 0x22, 0xF1, 0x5C, 0xE3, 0x4E, 0xD5, 0x78, 0xC7, 0x6A] ++
  [0x52, 0xFF, 0x40, 0xED, 0x76, 0xDB, 0x64, 0xC9, 0x1A, 0xB7, 0x08, 0xA5, 0x3E, 0x93, 0x2C, 0x81] ++
  [0xC2, 0x6F, 0xD0, 0x7D, 0xE6, 0x4B, 0xF4, 0x59, 0x8A, 0x27, 0x98, 0x35, 0xAE, 0x03, 0xBC, 0x11] ++
  [0x7B, 0xD6, 0x69, 0xC4, 0x5F, 0xF2, 0x4D, 0xE0, 0x33, 0x9E, 0x21, 0x8C, 0x17, 0xBA, 0x05, 0xA8] ++
  [0xEB, 0x46, 0xF9, 0x54, 0xCF, 0x62, 0xDD, 0x70, 0xA3, 0x0E, 0xB1, 0x1C, 0x87, 0x2A, 0x95, 0x38] ++
  [0xA4, 0x09, 0xB6, 0x1B, 0x80, 0x2D, 0x92, 0x3F, 0xEC, 0x41, 0xFE, 0x53, 0xC8, 0x65, 0xDA, 0x77] ++
  [0x34, 0x99, 0x26, 0x8B, 0x10, 0xBD, 0x02, 0xAF, 0x7C, 0xD1, 0x6E, 0xC3, 0x58, 0xF5, 0x4A, 0xE7] ++
  [0x8D, 0x20, 0x9F, 0x32, 0xA9, 0x04, 0xBB, 0x16, 0xC5, 0x68, 0xD7, 0x7A, 0xE1, 0x4C, 0xF3, 0x5E] ++
  [0x1D, 0xB0, 0x0F, 0xA2, 0x39, 0x94, 0x2B, 0x86, 0x55, 0xF8, 0x47, 0xEA, 0x71, 0xDC, 0x63, 0xCE] ++
  [0xF6, 0x5B, 0xE4, 0x49, 0xD2, 0x7F, 0xC0, 0x6D, 0xBE, 0x13, 0xAC, 0x01, 0x9A, 0x37, 0x88, 0x25] ++
  [0x66, 0xCB, 0x74, 0xD9, 0x42, 0xEF, 0x50, 0xFD, 0x2E, 0x83, 0x3C, 0x91, 0x0A, 0xA7, 0x18, 0xB5] ++
  [0xDF, 0x72, 0xCD, 0x60, 0xFB, 0x56, 0xE9, 0x44, 0x97, 0x3A, 0x85, 0x28, 0xB3, 0x1E, 0xA1, 0x0C] ++
  [0x4F, 0xE2, 0x5D, 0xF0, 0x6B, 0xC6, 0x79, 0xD4, 0x07, 0xAA, 0x15, 0xB8, 0x23, 0x8E, 0x31, 0x9C]

theorem test_transform_table : (List.range 256).map (fun x => (xs Config.hw (BitVec.ofNat 8 x)).toNat) = tableT2 := by
  decide +kernel

/-- R56(b): truncation before the XOR; R6: `sext_k`, `signed8`. -/
theorem test_bits : shl8 0x81 3 = 0x08#8 ∧ shr8 0x81 5 = 0x04#8 ∧ sext8 3 0b101 = 0xFD#8 ∧ sext8 8 0x80 = 0x80#8 ∧
    sext8 2 0b01 = 0x01#8 ∧ signed8 0xFD = -3 ∧ signed8 0x7F = 127 := by decide

/-- The alternatives of decisions D3 and D4, on the source's interleaving scenario: UBITS 3 and then SBITS 2. -/
theorem test_conventions :
    let msb : Config := { config0 with pullOrder := .msbFirst }
    let last : Config := { config0 with signPosition := .lastPulled }
    let m := pullBits msb 3 ⟨1, 0, 0⟩
    let l := pullBits last 3 ⟨1, 0, 0⟩
    m.1 = 0x05#8 ∧ signedResult msb 2 (pullBits msb 3 m.2).1 = 0x03#8 ∧
    l.1 = 0x05#8 ∧ signedResult last 2 (pullBits last 3 l.2).1 = 0xFE#8 := by decide

/-! ## The commands, one step each -/

/-- E1, E3. -/
theorem test_seed : vector ⟨0x4C, 0x15, 5⟩ 0x001 none ⟨0x01, 0x15, 5⟩ = true ∧
    vector ⟨0xAD, 0x0A, 4⟩ 0x080 none ⟨0x80, 0x0A, 4⟩ = true := by decide

/-- E12, U1: SEED 0 is refused. -/
theorem test_seed_zero : refuses (step ⟨⟨0x01, 0x00, 0⟩, [.command 0x000], []⟩) .zeroSeed = true := by decide

/-- E8, E9, E7. -/
theorem test_next : vector ⟨0x01, 0x15, 5⟩ 0x100 (some 0xAD) ⟨0xAD, 0x15, 5⟩ = true ∧
    vector ⟨0x4C, 0x00, 0⟩ 0x155 (some 0x3E) ⟨0x3E, 0x00, 0⟩ = true ∧
    vector ⟨0xCB, 0x00, 0⟩ 0x100 (some 0x01) ⟨0x01, 0x00, 0⟩ = true := by decide

/-- R52 corner case 2, U1. -/
theorem test_next_zero_state : refuses (step ⟨⟨0x00, 0x15, 5⟩, [.command 0x100], []⟩) .zeroState = true := by decide

/-- U3, U13, U14, U15, U21, U22. -/
theorem test_ubits : vector ⟨0x01, 0x00, 0⟩ 0x203 (some 0x05) ⟨0xAD, 0x15, 5⟩ = true ∧
    vector ⟨0xAD, 0x15, 5⟩ 0x205 (some 0x15) ⟨0xAD, 0x00, 0⟩ = true ∧
    vector ⟨0xAD, 0x02, 2⟩ 0x204 (some 0x04) ⟨0x4C, 0x13, 6⟩ = true ∧
    vector ⟨0xAD, 0x56, 7⟩ 0x208 (some 0x6A) ⟨0x4C, 0x26, 7⟩ = true ∧
    vector ⟨0xAD, 0x00, 0⟩ 0x208 (some 0x32) ⟨0x4C, 0x00, 0⟩ = true ∧
    vector ⟨0xAD, 0xF5, 5⟩ 0x205 (some 0x15) ⟨0xAD, 0x07, 0⟩ = true := by decide

/-- U9, U10, U11, U12: invalid, also with an empty buffer. -/
theorem test_ubits_invalid : vector ⟨0x01, 0x00, 0⟩ 0x200 (some 0x00) ⟨0x01, 0x00, 0⟩ = true ∧
    vector ⟨0x01, 0x00, 0⟩ 0x209 (some 0x00) ⟨0x01, 0x00, 0⟩ = true ∧
    vector ⟨0x4C, 0x02, 3⟩ 0x2FF (some 0x00) ⟨0x4C, 0x02, 3⟩ = true ∧
    vector ⟨0x4C, 0x02, 3⟩ 0x280 (some 0x00) ⟨0x4C, 0x02, 3⟩ = true := by decide

/-- S2, S23, S24, S25, S27, S28. -/
theorem test_sbits : vector ⟨0x01, 0x00, 0⟩ 0x302 (some 0xFD) ⟨0xAD, 0x15, 5⟩ = true ∧
    vector ⟨0x8A, 0x00, 0⟩ 0x307 (some 0x7F) ⟨0xFE, 0x00, 0⟩ = true ∧
    vector ⟨0xCB, 0x00, 0⟩ 0x307 (some 0x80) ⟨0x01, 0x00, 0⟩ = true ∧
    vector ⟨0xAD, 0x01, 1⟩ 0x303 (some 0xF9) ⟨0x4C, 0x09, 5⟩ = true ∧
    vector ⟨0x4C, 0x02, 3⟩ 0x302 (some 0x02) ⟨0x4C, 0x00, 0⟩ = true ∧
    vector ⟨0x4C, 0x02, 3⟩ 0x303 (some 0x04) ⟨0x3E, 0x1F, 7⟩ = true := by decide

/-- S8, S9, S10. -/
theorem test_sbits_invalid : vector ⟨0x01, 0x00, 0⟩ 0x300 (some 0x00) ⟨0x01, 0x00, 0⟩ = true ∧
    vector ⟨0x4C, 0x02, 3⟩ 0x308 (some 0x00) ⟨0x4C, 0x02, 3⟩ = true ∧
    vector ⟨0x4C, 0x02, 3⟩ 0x3FF (some 0x00) ⟨0x4C, 0x02, 3⟩ = true := by decide

/-! ## The host's other events, the pins, the assembler -/

/-- R48, U2. -/
theorem test_events :
    answers (step (at0 0x4C 0x02 3)) (at0 0x4C 0x02 3) = true ∧
    answers (step ⟨⟨0x4C, 0x02, 3⟩, [.noCommand], []⟩) (at0 0x4C 0x02 3) = true ∧
    refuses (step ⟨⟨0x4C, 0x02, 3⟩, [.concurrent 0x100 0x100], []⟩) .concurrentAccess = true := by decide

/-- R87, whatever the default seed is. -/
theorem test_reset_event : step ⟨⟨0x4C, 0x02, 3⟩, [.reset], [none]⟩ = .next State.reset := rfl

/-- R38, R41. -/
theorem test_pins : InputPins.event ⟨false, true, 0b11, 0x02⟩ = .command 0x302#10 ∧
    InputPins.event ⟨false, false, 0b11, 0x02⟩ = .noCommand ∧ InputPins.event ⟨true, true, 0b11, 0x02⟩ = .reset ∧
    responsePins 0 (some 0xFD) = ⟨true, 0xFD⟩ := by decide

/-- R46: the conventional forms, either radix, a comment, and the assembly errors. -/
theorem test_assembler :
    assembleLine ['S', 'E', 'E', 'D', ' ', '0', 'x', '0', '1', ' ', ';', 'x'] = .ok (some (.seed 1)) ∧
    assembleLine ['S', 'B', 'I', 'T', 'S', ' ', '0', 'x', 'f', 'F'] = .ok (some (.sbits 255)) ∧
    assembleLine ['U', 'B', 'I', 'T', 'S', ' ', '2', '5', '6'] = .error .illFormed ∧
    assembleLine ['N', 'E', 'X', 'T', ' ', '0'] = .error .illFormed ∧
    assembleLine ['n', 'e', 'x', 't'] = .error .unknownMnemonic ∧
    assembleLine ['S', 'E', 'E', 'D', ' ', '0', 'x'] = .error .notANumber ∧
    assembleLine ['U', 'B', 'I', 'T', 'S', ' ', '1', ' ', '2'] = .error .trailingText ∧
    assembleLine [';', 'N'] = .ok none := by decide

/-- R10, R46: a program text's words. -/
theorem test_assemble_program :
    (match assemble ['N', 'E', 'X', 'T', '\n', 'U', 'B', 'I', 'T', 'S', ' ', '3', '\n'] with
     | .ok ws => ws == [0x100#10, 0x203#10]
     | .error _ => false) = true := by decide

/-- The first step from reset runs a presented word of every row, whatever the default seed is. -/
theorem test_first_step :
    (∀ p ∈ [(0x001, Instr.seed 1), (0x100, .next), (0x203, .ubits 3), (0x302, .sbits 2), (0x300, .sbits 0)],
      decodeTableWord 16 p.1 = some p.2) ∧
    answers (step (State.reset.withFetchWord 16 0x001)) ⟨⟨0x01, 0x00, 0⟩, [], [none]⟩ = true := by decide

theorem test_first_step_invalid :
    step (State.reset.withFetchWord 16 0x209) = .next ⟨State.reset.block, [], [some 0]⟩ := rfl

/-! ## Witnesses -/

theorem witness_DecodeByOpcodeBits : 0x001#10 &&& 0x300#10 = 0x000#10 ∧ 0x1FF#10 &&& 0x300#10 = 0x100#10 ∧
    0x200#10 &&& 0x300#10 = 0x200#10 ∧ 0x3FF#10 &&& 0x300#10 = 0x300#10 := by decide

theorem witness_OperandIsUnsignedByte : decode 0x0FF#10 = .seed 0xFF#8 ∧ decode 0x200#10 = .ubits 0x00#8 ∧
    decode 0x3FF#10 = .sbits 0xFF#8 := by decide

theorem witness_NextIgnoresOperandField : decode 0x155#10 = .next ∧ decode 0x1FF#10 = .next := by decide

theorem witness_ShiftsAndExtensions : 1 ≤ 1 ∧ 1 ≤ 8 ∧ 8 ≤ 8 ∧ 7 < 8 := by decide

theorem witness_TransformBijectiveForAllDistances : Config.hw.wf = true ∧
    Config.wf { config0 with shA := 1, shB := 7, shC := 1, defaultSeed := 0xFF } = true := by decide

theorem witness_SeedCommand : (0x01#8 : Byte) ≠ 0x00#8 ∧ (0xFF#8 : Byte) ≠ 0x00#8 ∧
    (at0 0x4C 0x15 5).block.S ≠ 0x00#8 := by decide

theorem witness_NextCommand : (at0 0x01 0x00 0).block.S ≠ 0x00#8 := by decide

/-- A run from reset of two events that gives a next state. -/
theorem witness_run_from_reset :
    runFor 2 { State.reset with host := [.command 0x001#10, .command 0x203#10] } =
      .next ⟨⟨0xAD, 0x15, 5⟩, [], [none, some 0x05]⟩ := next_of_answers _ _ (by decide)

theorem witness_NextResponseRange : (at0 0x01 0x00 0).block.S ≠ 0x00#8 ∧
    ∃ s, runFor 2 { State.reset with host := [.command 0x001#10, .command 0x203#10] } = .next s :=
  ⟨by decide, _, witness_run_from_reset⟩

theorem witness_exec_next : exec .next (at0 0x01 0x00 0) = .next ⟨⟨0xAD, 0x00, 0⟩, [], [some 0xAD]⟩ :=
  next_of_answers _ _ (by decide)

theorem witness_exec_seed : exec (.seed 0x80) (at0 0xAD 0x0A 4) = .next ⟨⟨0x80, 0x0A, 4⟩, [], [none]⟩ :=
  next_of_answers _ _ (by decide)

theorem witness_PermutationProperty : (at0 0x01 0x00 0).block.S ≠ 0x00#8 ∧
    (∀ w ∈ [0x100#10, 0x1FF#10], decode w = .next) ∧ (∀ v, Instr.next ≠ .seed v) ∧
    exec .next (at0 0x01 0x00 0) = .next ⟨⟨0xAD, 0x00, 0⟩, [], [some 0xAD]⟩ :=
  ⟨by decide, by decide, by intro v; simp, witness_exec_next⟩

theorem witness_SeedingRepositions : 1 ≤ 1 ∧ 255 ≤ 255 ∧ cycleElement 1 = 0xAD#8 := by decide

theorem witness_SeedAndNextIgnoreTheBuffer :
    (∃ t, exec .next (at0 0x01 0x00 0) = .next t) ∧ (∃ t, exec (.seed 0x80) (at0 0xAD 0x0A 4) = .next t) :=
  ⟨⟨_, witness_exec_next⟩, ⟨_, witness_exec_seed⟩⟩

theorem witness_PullBitsClosedForm :
    (1 ≤ 8 ∧ 8 ≤ (⟨0x01, 0xAD, 8⟩ : Block).CNT.val) ∧ ((⟨0x01, 0x56, 7⟩ : Block).CNT.val < 8) ∧
    ((⟨0x01, 0x15, 5⟩ : Block).BUF = shr8 0xAD 3 ∧ (⟨0x01, 0x15, 5⟩ : Block).CNT.val = 8 - 3 ∧ 3 + 5 ≤ 8 ∧ 4 < 5) ∧
    ((⟨0x01, 0x00, 0⟩ : Block).CNT = 0) := by decide

/-- UBITS at both ends of its range: served from the buffer, also with `S = 0`, and with a refill. -/
theorem witness_UbitsCommand :
    (1 ≤ (1#8 : Byte).toNat ∧ (1#8 : Byte).toNat ≤ (at0 0x00 0x15 5).block.CNT.val) ∧
    ((8#8 : Byte).toNat ≤ 8 ∧ (at0 0x01 0x00 0).block.S ≠ 0x00#8) ∧ 9 ≤ (9#8 : Byte).toNat := by decide

theorem witness_exec_ubits : exec (.ubits 8) (at0 0xAD 0x56 7) = .next ⟨⟨0x4C, 0x26, 7⟩, [], [some 0x6A]⟩ :=
  next_of_answers _ _ (by decide)

theorem witness_UbitsRange : (∃ t, exec (.ubits 8) (at0 0xAD 0x56 7) = .next t) ∧
    (at0 0x01 0x00 0).block.CNT = 0 ∧ (at0 0x01 0x00 0).block.S ≠ 0x00#8 := ⟨⟨_, witness_exec_ubits⟩, by decide⟩

/-- Both ends of the invalid range, and a command after an invalid one. -/
theorem witness_InvalidUbitsChangesNothing : (0x00#8 : Byte) = 0x00#8 ∧ 9 ≤ (9#8 : Byte).toNat ∧
    9 ≤ (255#8 : Byte).toNat ∧ (∃ t, exec (.ubits 9) (at0 0x01 0x00 0) = .next t) ∧
    (∃ t, exec .next (at0 0x01 0x00 0) = .next t) :=
  ⟨by decide, by decide, by decide, ⟨_, rfl⟩, ⟨_, witness_exec_next⟩⟩

theorem witness_SbitsCommand :
    ((1#8 : Byte).toNat + 1 ≤ (at0 0x00 0x15 5).block.CNT.val) ∧
    ((7#8 : Byte).toNat ≤ 7 ∧ (at0 0x01 0x00 0).block.S ≠ 0x00#8) ∧ 8 ≤ (8#8 : Byte).toNat := by decide

theorem witness_exec_sbits : exec (.sbits 7) (at0 0xAD 0x05 3) = .next ⟨⟨0x4C, 0x02, 3⟩, [], [some 0xA6]⟩ :=
  next_of_answers _ _ (by decide)

theorem witness_SbitsRange : (∃ t, exec (.sbits 7) (at0 0xAD 0x05 3) = .next t) ∧
    (-(2 ^ (7#8 : Byte).toNat : Int) ≤ -128 ∧ (-128 : Int) ≤ 2 ^ (7#8 : Byte).toNat - 1) ∧
    (-(2 ^ (1#8 : Byte).toNat : Int) ≤ 1 ∧ (1 : Int) ≤ 2 ^ (1#8 : Byte).toNat - 1) :=
  ⟨⟨_, witness_exec_sbits⟩, by decide, by decide⟩

theorem witness_SbitsMatchesUbits : ∃ t, exec (.sbits 7) (at0 0xAD 0x05 3) = .next t := ⟨_, witness_exec_sbits⟩

theorem witness_InvalidSbitsChangesNothing : (0x00#8 : Byte) = 0x00#8 ∧ 8 ≤ (8#8 : Byte).toNat ∧
    8 ≤ (255#8 : Byte).toNat ∧ (∃ t, exec (.sbits 8) (at0 0x01 0x00 0) = .next t) ∧
    (∃ t, exec .next (at0 0x01 0x00 0) = .next t) :=
  ⟨by decide, by decide, by decide, ⟨_, rfl⟩, ⟨_, witness_exec_next⟩⟩

/-- A request served from the buffer, and one that refills. -/
theorem witness_RefillOnlyOnDemand :
    (declaredBits (.ubits 5) ≤ (at0 0xAD 0x15 5).block.CNT.val ∧
      exec (.ubits 5) (at0 0xAD 0x15 5) = .next ⟨⟨0xAD, 0x00, 0⟩, [], [some 0x15]⟩) ∧
    ((at0 0xAD 0x05 3).block.CNT.val < declaredBits (.sbits 7) ∧
      ∃ t, exec (.sbits 7) (at0 0xAD 0x05 3) = .next t) ∧
    Instr.isRequest .next = false :=
  ⟨⟨by decide, next_of_answers _ _ (by decide)⟩, ⟨by decide, _, witness_exec_sbits⟩, rfl⟩

/-- Vectors U13 and U22 start in these two blocks. -/
theorem witness_StaleBitsUnobservable :
    (at0 0xAD 0x15 5).block.SameLive (at0 0xAD 0xF5 5).block ∧ (at0 0xAD 0x15 5).host = (at0 0xAD 0xF5 5).host ∧
    (at0 0xAD 0x15 5).block ≠ (at0 0xAD 0xF5 5).block :=
  ⟨⟨rfl, rfl, by decide⟩, rfl, by decide⟩

/-- A program that runs: UBITS 3 and SBITS 2 from S = 0x01. -/
theorem witness_program : runFor [0x203#10, 0x302#10].length ((at0 0x01 0x00 0).withProgram [0x203#10, 0x302#10]) =
    .next ⟨⟨0xAD, 0x02, 2⟩, [], [some 0x05, some 0xFD]⟩ := next_of_answers _ _ (by decide)

/-- A program that runs from reset. -/
theorem witness_program_from_reset : runFor [0x001#10, 0x203#10].length (State.reset.withProgram [0x001#10, 0x203#10]) =
    .next ⟨⟨0xAD, 0x15, 5⟩, [], [none, some 0x05]⟩ := next_of_answers _ _ (by decide)

theorem witness_BitAccounting :
    (∃ t, runFor [0x203#10, 0x302#10].length ((at0 0x01 0x00 0).withProgram [0x203#10, 0x302#10]) = .next t) ∧
    (∃ t, runFor [0x001#10, 0x203#10].length (State.reset.withProgram [0x001#10, 0x203#10]) = .next t) ∧
    (∃ t, exec .next (at0 0x01 0x00 0) = .next t) :=
  ⟨⟨_, witness_program⟩, ⟨_, witness_program_from_reset⟩, ⟨_, witness_exec_next⟩⟩

theorem witness_DispenserStream :
    (∃ t, runFor [0x203#10, 0x302#10].length ((at0 0x01 0x00 0).withProgram [0x203#10, 0x302#10]) = .next t) ∧
    refillByte (.ubits 8) (at0 0xAD 0x56 7).block = some 0x4C#8 ∧
    (∀ w ∈ [0x203#10, 0x302#10], (decode w).isRequest = true) := ⟨⟨_, witness_program⟩, by decide, by decide⟩

theorem witness_RequestsShareOneStream : (at0 0x01 0x00 0).block.S ≠ 0x00#8 ∧
    ∀ w ∈ [0x203#10, 0x302#10, 0x209#10], (decode w).isRequest = true := by decide

theorem witness_CountsIndependentOfConventions : 1 ≤ 1 ∧ 1 ≤ 8 ∧ 8 ≤ 8 := by decide

theorem witness_StepKeepsInvariants : State.Inv ⟨⟨0xAD, 0x56, 7⟩, [.command 0x208#10], []⟩ ∧
    step ⟨⟨0xAD, 0x56, 7⟩, [.command 0x208#10], []⟩ = .next ⟨⟨0x4C, 0x26, 7⟩, [], [some 0x6A]⟩ :=
  ⟨by decide, next_of_answers _ _ (by decide)⟩

theorem witness_RunsFromResetKeepInvariants :
    ∃ s, runFor 2 { State.reset with host := [.command 0x001#10, .command 0x203#10] } = .next s :=
  ⟨_, witness_run_from_reset⟩

theorem witness_ContractRunsNeverStop :
    State.Inv ⟨⟨0xAD, 0x56, 7⟩, [.command 0x208#10, .reset, .noCommand, .command 0x2FF#10], []⟩ ∧
    State.hostKeepsContract ⟨⟨0xAD, 0x56, 7⟩, [.command 0x208#10, .reset, .noCommand, .command 0x2FF#10], []⟩ = true ∧
    (∀ w ∈ [0x001#10, 0x203#10], decode w ≠ .seed 0x00#8) := by decide

theorem witness_StepRunsDecodedCommand :
    State.host ⟨⟨0xAD, 0x56, 7⟩, [.command 0x208#10], []⟩ = .command 0x208#10 :: [] ∧
    decodeTableWord 16 0x208 = some (.ubits 8) := by decide

theorem witness_NoCommandChangesNothing : (at0 0x4C 0x02 3).host = [] := rfl

theorem witness_ResetEventResetsBlock : State.host ⟨⟨0x4C, 0x02, 3⟩, [.reset], []⟩ = .reset :: [] := rfl

theorem witness_ResetEventStartsNewRun : State.host ⟨⟨0x4C, 0x02, 3⟩, [.reset, .noCommand], []⟩ = .reset :: [.noCommand] :=
  rfl

theorem witness_UsableRightAfterReset : (1 ≤ (1#8 : Byte).toNat ∧ (8#8 : Byte).toNat ≤ 8) ∧ (7#8 : Byte).toNat ≤ 7 ∧
    9 ≤ (9#8 : Byte).toNat ∧ 8 ≤ (8#8 : Byte).toNat := by decide

theorem witness_SeedAfterResetFixesState : (0x80#8 : Byte) ≠ 0x00#8 := by decide

theorem witness_DrainEmptiesBuffer : (0 < (at0 0x4C 0x02 3).block.CNT.val ∧ (at0 0x4C 0x02 3).block.S ≠ 0x00#8) ∧
    ∃ t, runFor [0x001#10, 0x203#10].length (State.reset.withProgram [0x001#10, 0x203#10]) = .next t :=
  ⟨by decide, _, witness_program_from_reset⟩

/-- Program P3: a late SEED with four bits buffered; `UBITS 8` after it meets both cases of the statement. -/
theorem witness_LateSeedKeepsBufferedBits : (0x80#8 : Byte) ≠ 0x00#8 ∧ (1 ≤ (8#8 : Byte).toNat ∧ (8#8 : Byte).toNat ≤ 8) ∧
    (∃ t, exec (.seed 0x80) (at0 0xAD 0x0A 4) = .next t) ∧ 3 < (at0 0xAD 0x0A 4).block.CNT.val ∧
    ¬ 4 < (at0 0xAD 0x0A 4).block.CNT.val := ⟨by decide, by decide, ⟨_, witness_exec_seed⟩, by decide, by decide⟩

theorem witness_NextTakesByteFromDispenser : (∃ t, exec .next (at0 0x01 0x00 0) = .next t) ∧
    refillByte (.ubits 8) (at0 0xAD 0x56 7).block = some 0x4C#8 ∧ (∃ t, exec (.ubits 8) (at0 0xAD 0x56 7) = .next t) :=
  ⟨⟨_, witness_exec_next⟩, by decide, ⟨_, witness_exec_ubits⟩⟩

theorem witness_WholeByteRequestIsNotNext : (at0 0x01 0x00 0).block.S ≠ 0x00#8 ∧ (at0 0x01 0x00 0).block.CNT = 0 ∧
    (at0 0xAD 0x56 7).block.CNT.val < 8 ∧ ({ config0 with pullOrder := .msbFirst } : Config).pullOrder = .msbFirst := by
  decide

theorem witness_ZeroResponseIsAmbiguous : (∃ t, exec (.ubits 8) (at0 0xAD 0x56 7) = .next t) ∧
    (∃ t, exec (.sbits 7) (at0 0xAD 0x05 3) = .next t) ∧
    exec (.ubits 1) (at0 0x01 0x02 2) = .next ⟨⟨0x01, 0x01, 1⟩, [], [some 0x00]⟩ :=
  ⟨⟨_, witness_exec_ubits⟩, ⟨_, witness_exec_sbits⟩, next_of_answers _ _ (by decide)⟩

/-- Every kind of command answers a next state somewhere. -/
theorem witness_FrameOfEveryCommand : (∃ t, exec (.seed 0x80) (at0 0xAD 0x0A 4) = .next t) ∧
    (∃ t, exec .next (at0 0x01 0x00 0) = .next t) ∧ (∃ t, exec (.ubits 8) (at0 0xAD 0x56 7) = .next t) ∧
    (∃ t, exec (.sbits 7) (at0 0xAD 0x05 3) = .next t) ∧ (∃ t, exec (.ubits 9) (at0 0x01 0x00 0) = .next t) :=
  ⟨⟨_, witness_exec_seed⟩, ⟨_, witness_exec_next⟩, ⟨_, witness_exec_ubits⟩, ⟨_, witness_exec_sbits⟩, ⟨_, rfl⟩⟩

theorem witness_OutcomeDependsOnBlockOnly :
    (at0 0x01 0x00 0).block = (State.mk ⟨0x01, 0x00, 0⟩ [.reset] [none]).block ∧
    (∃ t, exec .next (at0 0x01 0x00 0) = .next t) ∧ exec (.seed 0x00#8) (at0 0x01 0x00 0) = .refused .zeroSeed :=
  ⟨rfl, ⟨_, witness_exec_next⟩, rfl⟩

/-- A valid request twice, an invalid one twice, SEED twice, NEXT twice. -/
theorem witness_Idempotency : (at0 0xAD 0x56 7).block.S ≠ 0x00#8 ∧
    (exec (.ubits 8) (at0 0xAD 0x56 7) = .next ⟨⟨0x4C, 0x26, 7⟩, [], [some 0x6A]⟩ ∧
      ∃ u, exec (.ubits 8) ⟨⟨0x4C, 0x26, 7⟩, [], [some 0x6A]⟩ = .next u) ∧
    (∃ t u, exec (.ubits 0) (at0 0xAD 0x56 7) = .next t ∧ exec (.ubits 0) t = .next u) ∧
    (∃ t u, exec (.seed 1) (at0 0xAD 0x56 7) = .next t ∧ exec (.seed 1) t = .next u) ∧
    (exec .next (at0 0x01 0x00 0) = .next ⟨⟨0xAD, 0x00, 0⟩, [], [some 0xAD]⟩ ∧
      ∃ u, exec .next ⟨⟨0xAD, 0x00, 0⟩, [], [some 0xAD]⟩ = .next u) :=
  ⟨by decide, ⟨witness_exec_ubits, _, rfl⟩, ⟨_, _, rfl, rfl⟩, ⟨_, _, rfl, rfl⟩, ⟨witness_exec_next, _, rfl⟩⟩

theorem witness_PinsCarryTheCommand : (InputPins.mk true true 0 0).rst = true ∧
    ((InputPins.mk false false 0 0).rst = false ∧ (InputPins.mk false false 0 0).cmdValid = false) ∧
    ((InputPins.mk false true 3 2).rst = false ∧ (InputPins.mk false true 3 2).cmdValid = true) := by decide

end Sys2Proof.Tests
end

section
/-! The invariants of R24: the transform keeps a Generator State from becoming zero (R50), a request keeps the three
invariants together (R63), so does every command, and so does every step. -/
namespace Sys2Proof.Machine

/-! ### The transform and zero -/

/-- Each of the three shift-and-XOR steps is injective, and so is the transform (R50). -/
theorem xs_injective (c : Config) (hA : 1 ≤ c.shA) (hB : 1 ≤ c.shB) (hC : 1 ≤ c.shC) : Function.Injective (xs c) :=
  ((shl8_step_injective c.shC hC).comp (shr8_step_injective c.shB hB)).comp (shl8_step_injective c.shA hA)

/-- Zero is a fixed point of the transform, whatever the distances (R50). -/
@[simp] theorem xs_zero (c : Config) : xs c 0x00#8 = 0x00#8 := by simp [xs, shl8, shr8]

/-- The transform leads to zero from zero only (R50). -/
@[simp] theorem xs_hw_eq_zero_iff (x : Byte) : xs Config.hw x = 0x00#8 ↔ x = 0x00#8 := by
  have hinj : Function.Injective (xs Config.hw) := xs_injective Config.hw (by simp) (by simp) (by simp)
  exact hinj.eq_iff' (xs_zero Config.hw)

/-! ### The block after a request -/

/-- What a request of at most `CNT` bits leaves (R63). -/
theorem afterRequest_of_le {b : Block} {k : Nat} (h : k ≤ b.CNT.val) :
    (afterRequest b k).S = b.S ∧ (afterRequest b k).BUF = b.BUF >>> k ∧
      (afterRequest b k).CNT.val = b.CNT.val - k := by
  simp [afterRequest, h]

/-- What a request of more than `CNT` bits leaves: the rest of the fresh byte (R63). -/
theorem afterRequest_of_lt {b : Block} {k : Nat} (h : b.CNT.val < k) :
    (afterRequest b k).S = xs Config.hw b.S ∧ (afterRequest b k).BUF = xs Config.hw b.S >>> (k - b.CNT.val) ∧
      (afterRequest b k).CNT.val = 8 - (k - b.CNT.val) := by
  simp [afterRequest, Nat.not_le.mpr h]

/-- Shifting `j` of `m` valid bits out leaves `m - j`, with zeros above them. -/
theorem toNat_ushiftRight_lt {v : Byte} {j m : Nat} (hv : v.toNat < 2 ^ m) (hj : j ≤ m) :
    (v >>> j).toNat < 2 ^ (m - j) := by
  rw [BitVec.toNat_ushiftRight, Nat.shiftRight_eq_div_pow]
  apply Nat.div_lt_of_lt_mul
  rwa [← Nat.pow_add, Nat.add_sub_cancel' hj]

/-- A request of at most 8 bits keeps the invariants: without a refill the valid bits only become fewer; with one, at
least one bit of the fresh byte is taken, so at most 7 are left. -/
theorem Block.Inv.afterRequest {b : Block} {k : Nat} (hb : b.Inv) (hk : k ≤ 8) : (afterRequest b k).Inv := by
  obtain ⟨hCNT, hBUF, hS⟩ := hb
  by_cases h : k ≤ b.CNT.val
  · obtain ⟨eS, eBUF, eCNT⟩ := afterRequest_of_le h
    refine ⟨by omega, ?_, eS ▸ hS⟩
    rw [eBUF, eCNT]
    exact toNat_ushiftRight_lt hBUF h
  · obtain ⟨eS, eBUF, eCNT⟩ := afterRequest_of_lt (Nat.lt_of_not_le h)
    refine ⟨by omega, ?_, by simpa [eS] using hS⟩
    rw [eBUF, eCNT]
    exact toNat_ushiftRight_lt (BitVec.isLt _) (by omega)

/-! ### Commands, steps and runs -/

/-- The reset state has the invariants, whatever the default seed is (R23, R24). -/
theorem State.reset_inv : State.reset.Inv := ⟨by simp, by simp, Config.hwDefaultSeed_ne_zero⟩

/-- Serving a request of at most 8 bits keeps the invariants. -/
theorem dispense_inv {k : Nat} {finish : Byte → Byte} {s t : State} (hs : s.Inv) (hk : k ≤ 8)
    (h : dispense k finish s = .next t) : t.Inv := by
  obtain ⟨-, -, e⟩ | ⟨-, e⟩ := dispense_cases k finish s <;> rw [e] at h <;> cases h
  rw [State.Inv, State.respond_block, pullBits_eq s.block k hk]
  exact hs.afterRequest hk

/-- Every command that gives a next state keeps the invariants: SEED stores a value that is not zero, NEXT transforms one,
an invalid request changes nothing, and a valid one is served. -/
theorem exec_inv {i : Instr} {s t : State} (hs : s.Inv) (h : exec i s = .next t) : t.Inv := by
  have ⟨hCNT, hBUF, _⟩ := hs
  cases i with
  | seed v =>
    obtain ⟨-, e⟩ | ⟨hv, e⟩ := execSeed_cases v s <;> rw [exec_seed, e] at h <;> cases h
    exact ⟨hCNT, hBUF, hv⟩
  | next =>
    obtain ⟨-, e⟩ | ⟨hS, e⟩ := execNext_cases s <;> rw [exec_next, e] at h <;> cases h
    exact ⟨hCNT, hBUF, (xs_hw_eq_zero_iff _).not.mpr hS⟩
  | ubits n =>
    obtain ⟨-, e⟩ | ⟨⟨-, hn⟩, e⟩ := execUbits_cases n s <;> rw [exec_ubits, e] at h
    · cases h; exact hs
    · exact dispense_inv hs hn h
  | sbits n =>
    obtain ⟨-, e⟩ | ⟨⟨-, hn⟩, e⟩ := execSbits_cases n s <;> rw [exec_sbits, e] at h
    · cases h; exact hs
    · exact dispense_inv hs (by omega) h

/-- Every step that gives a next state keeps the invariants. -/
theorem step_inv (s t : State) (hs : s.Inv) (h : step s = .next t) : t.Inv := by
  obtain ⟨-, rfl⟩ | ⟨rest, -, rfl⟩ | ⟨rest, -, rfl⟩ | ⟨w, rest, -, he⟩ := step_next_cases s t h
  · exact hs
  · exact hs
  · exact State.reset_inv
  · exact exec_inv (s := s.awaiting rest) hs he

/-- Settles O35: the reset state has the invariants and every step keeps them, so every run from reset does; the count 8
of a refill is gone after the pull that follows the refill test. -/
theorem runsFromResetKeepInvariants : Obligations.RunsFromResetKeepInvariants := by
  unfold Obligations.RunsFromResetKeepInvariants
  constructor
  · intro es k t h
    exact runFor_keeps State.Inv step_inv k { State.reset with host := es } t State.reset_inv h
  · intro b
    exact ⟨refill_CNT b Config.hw, pullBit_CNT_le Config.hw b⟩

end Sys2Proof.Machine
end

section
/-! The dispenser stream of R28. A request's response carries the bits of its run, and what it leaves in the buffer is
the rest of the bits buffered and loaded (R63); a command list is followed one command at a time. -/
namespace Sys2Proof.Machine

/-! ### One request's share of the stream -/

/-- The bits a request of `k` bits takes and those it leaves buffered are the bits buffered before it, then those of the
fresh byte if it refills: the stream is cut at place `k`, and no bit is lost or doubled (R28, R63). -/
theorem requestBits_append_liveBits {b : Block} {k : Nat} (hk : k ≤ 8) :
    (List.range k).map (requestBit b) ++ liveBits (afterRequest b k) =
      liveBits b ++ if b.CNT.val < k then byteBits (xs Config.hw b.S) else [] := by
  by_cases h : k ≤ b.CNT.val
  · obtain ⟨-, eBUF, eCNT⟩ := afterRequest_of_le h
    have hcut : List.range b.CNT.val = List.range k ++ (List.range (b.CNT.val - k)).map (k + ·) := by
      rw [← List.range_add, Nat.add_sub_cancel' h]
    have htaken : (List.range k).map (requestBit b) = (List.range k).map b.BUF.getLsbD :=
      List.map_congr_left fun j hj => if_pos ((List.mem_range.mp hj).trans_le h)
    simp [liveBits, eBUF, eCNT, hcut, htaken, Nat.not_lt.mpr h]
  · have hlt : b.CNT.val < k := Nat.lt_of_not_le h
    obtain ⟨-, eBUF, eCNT⟩ := afterRequest_of_lt hlt
    generalize hm : k - b.CNT.val = m at eBUF eCNT
    have hcut : List.range k = List.range b.CNT.val ++ (List.range m).map (b.CNT.val + ·) := by
      rw [← List.range_add, ← hm, Nat.add_sub_cancel' hlt.le]
    have hbyte : List.range 8 = List.range m ++ (List.range (8 - m)).map (m + ·) := by
      rw [← List.range_add, Nat.add_sub_cancel' (by omega)]
    have hold : (List.range b.CNT.val).map (requestBit b) = liveBits b :=
      List.map_congr_left fun j hj => if_pos (List.mem_range.mp hj)
    have hfresh : (requestBit b ∘ (b.CNT.val + ·)) = (xs Config.hw b.S).getLsbD := by
      funext j
      simp [requestBit]
    rw [hcut, List.map_append, hold, if_pos hlt, byteBits, hbyte, List.map_map, hfresh]
    simp [liveBits, eBUF, eCNT]

/-- A field with the first bit pulled highest reads back, from the top, as the bits in the order pulled (R60). -/
theorem responseBits_some_eq {i : Instr} {v : Byte} {p : Nat → Bool}
    (h : ∀ j, j < declaredBits i → v.getLsbD j = p (declaredBits i - 1 - j)) :
    responseBits i (some v) = (List.range (declaredBits i)).map p := by
  apply List.ext_getElem
  · simp [responseBits]
  · intro j h1 h2
    have hj : j < declaredBits i := by simpa using h2
    have hback : declaredBits i - 1 - (declaredBits i - 1 - j) = j := by omega
    simp [responseBits, h _ (show declaredBits i - 1 - j < declaredBits i by omega), hback]

theorem responseBits_of_declaredBits_eq_zero {i : Instr} (h : declaredBits i = 0) (r : Response) :
    responseBits i r = [] := by
  cases r <;> simp [responseBits, h]

/-- Sign extension leaves the field's own bits alone (R6). -/
theorem sext8_getLsbD_of_lt {k j : Nat} (v : Byte) (hk : k ≤ 8) (hj : j < k) :
    (sext8 k v).getLsbD j = v.getLsbD j := by
  rw [sext8, BitVec.getLsbD_signExtend, BitVec.getLsbD_setWidth]
  simp [hj, hj.trans_le hk]

/-! ### What a command does to the buffer -/

/-- A served request leaves the block of R63, and its response has the bits pulled as its low `k` bits, the first one
highest. -/
theorem dispense_bits {k : Nat} {finish : Byte → Byte} {s t : State} (hk : k ≤ 8)
    (hf : ∀ v j, j < k → (finish v).getLsbD j = v.getLsbD j) (h : dispense k finish s = .next t) :
    ∃ v, t = s.respond (afterRequest s.block k) (some v) ∧
      ∀ j, j < k → v.getLsbD j = requestBit s.block (k - 1 - j) := by
  obtain ⟨-, -, e⟩ | ⟨-, e⟩ := dispense_cases k finish s <;> rw [e] at h <;> cases h
  rw [pullBits_eq s.block k hk]
  refine ⟨_, rfl, fun j hj => ?_⟩
  rw [hf _ j hj, BitVec.getLsbD_ofNat, fieldValue_testBit]
  simp [hj, hj.trans_le hk]

theorem declaredBits_le (i : Instr) : declaredBits i ≤ 8 := by
  cases i with
  | seed v => exact Nat.zero_le 8
  | next => exact Nat.zero_le 8
  | ubits n => rw [declaredBits]; split <;> omega
  | sbits n => rw [declaredBits]; split <;> omega

/-- A request that completes, valid or not: the block of R63 for its declared consumption, and a response that carries
its bits. An invalid one declares 0 bits, and the block of R63 is then the old one. -/
theorem exec_request {i : Instr} {s t : State} (hi : i.isRequest = true) (h : exec i s = .next t) :
    ∃ v, t = s.respond (afterRequest s.block (declaredBits i)) (some v) ∧
      responseBits i (some v) = (List.range (declaredBits i)).map (requestBit s.block) := by
  suffices ∃ v, t = s.respond (afterRequest s.block (declaredBits i)) (some v) ∧
      ∀ j, j < declaredBits i → v.getLsbD j = requestBit s.block (declaredBits i - 1 - j) by
    obtain ⟨v, ht, hv⟩ := this
    exact ⟨v, ht, responseBits_some_eq hv⟩
  cases i with
  | seed v => cases hi
  | next => cases hi
  | ubits n =>
    obtain ⟨hn, e⟩ | ⟨hn, e⟩ := execUbits_cases n s <;> rw [exec_ubits, e] at h
    · have hd : declaredBits (.ubits n) = 0 := if_neg (by omega)
      cases h
      exact ⟨0x00#8, by simp [hd]⟩
    · rw [show declaredBits (.ubits n) = n.toNat from if_pos hn]
      exact dispense_bits hn.2 (fun _ _ _ => rfl) h
  | sbits n =>
    obtain ⟨hn, e⟩ | ⟨hn, e⟩ := execSbits_cases n s <;> rw [exec_sbits, e] at h
    · have hd : declaredBits (.sbits n) = 0 := if_neg (by omega)
      cases h
      exact ⟨0x00#8, by simp [hd]⟩
    · rw [show declaredBits (.sbits n) = n.toNat + 1 from if_pos hn]
      exact dispense_bits (by omega) (fun v j hj => sext8_getLsbD_of_lt v (by omega) hj) h

/-- SEED and NEXT declare no bits and leave the buffer alone (R57). -/
theorem exec_not_request {i : Instr} {s t : State} (hi : i.isRequest = false) (h : exec i s = .next t) :
    declaredBits i = 0 ∧ ∃ S r, t = s.respond ⟨S, s.block.BUF, s.block.CNT⟩ r := by
  cases i with
  | seed v =>
    obtain ⟨-, e⟩ | ⟨-, e⟩ := execSeed_cases v s <;> rw [exec_seed, e] at h <;> cases h
    exact ⟨rfl, _, _, rfl⟩
  | next =>
    obtain ⟨-, e⟩ | ⟨-, e⟩ := execNext_cases s <;> rw [exec_next, e] at h <;> cases h
    exact ⟨rfl, _, _, rfl⟩
  | ubits n => cases hi
  | sbits n => cases hi

/-- One command's share of the stream: the bits its response carries, then the bits it leaves buffered, are the bits
buffered before it, then those of the byte it loads (R28). -/
theorem exec_stream {i : Instr} {s t : State} (h : exec i s = .next t) :
    ∃ r, t.responses = s.responses ++ [r] ∧
      responseBits i r ++ liveBits t.block = liveBits s.block ++ (refillByte i s.block).toList.flatMap byteBits := by
  cases hi : i.isRequest with
  | true =>
    obtain ⟨v, rfl, hv⟩ := exec_request hi h
    refine ⟨some v, rfl, ?_⟩
    rw [hv, State.respond_block, requestBits_append_liveBits (declaredBits_le i), refillByte]
    split <;> simp
  | false =>
    obtain ⟨hd, S, r, rfl⟩ := exec_not_request hi h
    refine ⟨r, rfl, ?_⟩
    simp [responseBits_of_declaredBits_eq_zero hd, refillByte, hd, liveBits]

/-! ### The refill bytes -/

theorem eq_xs_of_refillByte_eq_some {i : Instr} {b : Block} {y : Byte} (h : refillByte i b = some y) :
    y = xs Config.hw b.S := by
  rw [refillByte, Option.ite_none_right_eq_some] at h
  exact (Option.some.inj h.2).symm

/-- After a request the Generator State is the byte it loaded, or the old one (R61). -/
theorem exec_request_S {i : Instr} {s t : State} (hi : i.isRequest = true) (h : exec i s = .next t) :
    t.block.S = (refillByte i s.block).getD s.block.S := by
  obtain ⟨v, rfl, -⟩ := exec_request hi h
  rw [State.respond_block]
  by_cases hk : s.block.CNT.val < declaredBits i
  · simp [refillByte, hk, (afterRequest_of_lt hk).1]
  · simp [refillByte, hk, (afterRequest_of_le (Nat.le_of_not_lt hk)).1]

theorem refillBytes_cons_of_next {i : Instr} {s t : State} (is : List Instr) (h : exec i s = .next t) :
    refillBytes (i :: is) s = (refillByte i s.block).toList ++ refillBytes is t := by
  simp [refillBytes, h]

/-! ### A command list, one command at a time -/

/-- A served request depends on the block alone. -/
theorem dispense_of_block_eq {k : Nat} {finish : Byte → Byte} {s s' t : State} (hb : s.block = s'.block)
    (h : dispense k finish s = .next t) :
    ∃ r, t = s.respond t.block r ∧ dispense k finish s' = .next (s'.respond t.block r) := by
  obtain ⟨-, -, e⟩ | ⟨hc, e⟩ := dispense_cases k finish s <;> rw [e] at h <;> cases h
  exact ⟨_, rfl, by rw [dispense_next k finish s' (hb ▸ hc), hb]; rfl⟩

/-- What a command answers and leaves depends on the block alone, not on the host or the earlier responses (R16). -/
theorem exec_of_block_eq {i : Instr} {s s' t : State} (hb : s.block = s'.block) (h : exec i s = .next t) :
    ∃ r, t = s.respond t.block r ∧ exec i s' = .next (s'.respond t.block r) := by
  cases i with
  | seed v =>
    obtain ⟨-, e⟩ | ⟨hv, e⟩ := execSeed_cases v s <;> rw [exec_seed, e] at h <;> cases h
    exact ⟨none, rfl, by simp [execSeed, hv, hb]⟩
  | next =>
    obtain ⟨-, e⟩ | ⟨hS, e⟩ := execNext_cases s <;> rw [exec_next, e] at h <;> cases h
    rw [hb] at hS
    exact ⟨_, rfl, by simp [execNext, hS, hb, advance]⟩
  | ubits n =>
    obtain ⟨hn, e⟩ | ⟨hn, e⟩ := execUbits_cases n s <;> rw [exec_ubits, e] at h
    · have e' := ((execUbits_cases n s').resolve_right fun ⟨_, _⟩ => by omega).2
      cases h
      exact ⟨_, rfl, by rw [exec_ubits, e', ← hb]; rfl⟩
    · have e' := ((execUbits_cases n s').resolve_left fun ⟨_, _⟩ => by omega).2
      rw [exec_ubits, e']
      exact dispense_of_block_eq hb h
  | sbits n =>
    obtain ⟨hn, e⟩ | ⟨hn, e⟩ := execSbits_cases n s <;> rw [exec_sbits, e] at h
    · have e' := ((execSbits_cases n s').resolve_right fun ⟨_, _⟩ => by omega).2
      cases h
      exact ⟨_, rfl, by rw [exec_sbits, e', ← hb]; rfl⟩
    · have e' := ((execSbits_cases n s').resolve_left fun ⟨_, _⟩ => by omega).2
      rw [exec_sbits, e']
      exact dispense_of_block_eq hb h

/-- A program that completes has executed its first command, and then the rest of it completes. -/
theorem runFor_withProgram_cons {w : CmdWord} {ws : List CmdWord} {s t : State}
    (h : runFor (w :: ws).length (s.withProgram (w :: ws)) = .next t) :
    ∃ u, exec (decode w) s = .next u ∧ runFor ws.length (u.withProgram ws) = .next t := by
  obtain ⟨u, hu, ht⟩ := runFor_succ_next ws.length _ t h
  have he : exec (decode w) (s.awaiting (ws.map .command)) = .next u := hu
  obtain ⟨r, eu, hs⟩ := exec_of_block_eq (State.awaiting_block s _) he
  exact ⟨_, hs, by rw [eu] at ht; exact ht⟩

/-- The stream over a command list that completes: every bit of it is taken once, in order, or is still buffered (R28). -/
theorem runFor_withProgram_stream (ws : List CmdWord) (s t : State)
    (h : runFor ws.length (s.withProgram ws) = .next t) :
    ∃ rs : List Response, t.responses = s.responses ++ rs ∧ rs.length = ws.length ∧
      (List.zipWith responseBits (ws.map decode) rs).flatten ++ liveBits t.block =
        liveBits s.block ++ (refillBytes (ws.map decode) s).flatMap byteBits := by
  induction ws generalizing s with
  | nil => cases h; exact ⟨[], by simp [refillBytes]⟩
  | cons w ws ih =>
    obtain ⟨u, hu, ht⟩ := runFor_withProgram_cons h
    obtain ⟨r, hr, hbits⟩ := exec_stream hu
    obtain ⟨rs, hrs, hlen, hrest⟩ := ih u ht
    refine ⟨r :: rs, by simp [hrs, hr], by simp [hlen], ?_⟩
    calc (List.zipWith responseBits ((w :: ws).map decode) (r :: rs)).flatten ++ liveBits t.block
        = responseBits (decode w) r ++ (liveBits u.block ++ (refillBytes (ws.map decode) u).flatMap byteBits) := by
          simp [← hrest]
      _ = liveBits s.block ++ (refillBytes ((w :: ws).map decode) s).flatMap byteBits := by
          rw [← List.append_assoc, hbits, List.map_cons, refillBytes_cons_of_next _ hu, List.flatMap_append,
            List.append_assoc]

/-- In a list of requests each refill byte is `XS` of the one before, the first being `XS` of the Generator State at the
start (R28). -/
theorem refillBytes_of_requests (ws : List CmdWord) (s t : State) (hw : ∀ w ∈ ws, (decode w).isRequest = true)
    (h : runFor ws.length (s.withProgram ws) = .next t) :
    refillBytes (ws.map decode) s =
      (List.range (refillBytes (ws.map decode) s).length).map (fun j => (xs Config.hw)^[j + 1] s.block.S) := by
  induction ws generalizing s with
  | nil => rfl
  | cons w ws ih =>
    obtain ⟨u, hu, ht⟩ := runFor_withProgram_cons h
    obtain ⟨hreq, hws⟩ := List.forall_mem_cons.mp hw
    have hS := exec_request_S hreq hu
    have hrest := ih u hws ht
    rw [List.map_cons, refillBytes_cons_of_next _ hu]
    generalize refillBytes (ws.map decode) u = ys at hrest ⊢
    cases hy : refillByte (decode w) s.block with
    | none =>
      have hSame : u.block.S = s.block.S := by simpa [hy] using hS
      simpa [hSame] using hrest
    | some y =>
      have hAdv : u.block.S = xs Config.hw s.block.S := by
        simpa [hy, eq_xs_of_refillByte_eq_some hy] using hS
      simpa [eq_xs_of_refillByte_eq_some hy, hAdv, List.range_succ_eq_map, Function.comp_def] using hrest

@[simp] theorem liveBits_length (b : Block) : (liveBits b).length = b.CNT.val := by simp [liveBits]

/-- Settles O29: the stream, by induction over the command list with each command cutting it at its declared consumption;
the refill bytes, by the same induction for requests; and the bits left over, by the invariant `CNT ≤ 7`. -/
theorem dispenserStream : Obligations.DispenserStream := by
  unfold Obligations.DispenserStream
  refine ⟨runFor_withProgram_stream, fun _ _ _ => eq_xs_of_refillByte_eq_some, refillBytes_of_requests, ?_⟩
  intro ws t h
  have ⟨hCNT, _, _⟩ := runFor_keeps State.Inv step_inv ws.length (State.reset.withProgram ws) t State.reset_inv h
  simpa using hCNT

end Sys2Proof.Machine
end

section
/-! A command word's two fields and the command they make (R39, R40, R42, R44): the fields as numbers, the mask 0x300 as
the opcode field, and the four cases of the decoder. -/
namespace Sys2Proof

/-! ### The fields of a word -/

theorem opField_toNat (w : CmdWord) : (opField w).toNat = w.toNat / 256 := by
  rw [opField, BitVec.extractLsb'_toNat, Nat.shiftRight_eq_div_pow]
  omega

theorem argField_toNat (w : CmdWord) : (argField w).toNat = w.toNat % 256 := by
  rw [argField, BitVec.extractLsb'_toNat, Nat.shiftRight_zero]

@[simp] theorem opField_cmdWord (op : BitVec 2) (arg : Byte) : opField (cmdWord op arg) = op :=
  (Laws.cmdWord_fields op arg).2.1

@[simp] theorem argField_cmdWord (op : BitVec 2) (arg : Byte) : argField (cmdWord op arg) = arg :=
  (Laws.cmdWord_fields op arg).2.2

/-- A word is made of its two fields (R39). -/
theorem cmdWord_opField_argField (w : CmdWord) : cmdWord (opField w) (argField w) = w := by
  apply BitVec.eq_of_toNat_eq
  rw [(Laws.cmdWord_fields _ _).1, opField_toNat, argField_toNat, Nat.div_add_mod']

/-- The mask 0x300 keeps the opcode field and clears the operand field (R42). -/
theorem and_opMask (w : CmdWord) : w &&& 0x300#10 = cmdWord (opField w) 0x00#8 := by
  have hmask : 0x300#10 = cmdWord 0b11#2 0x00#8 := rfl
  have hop : opField w &&& 0b11#2 = opField w := BitVec.and_allOnes
  calc w &&& 0x300#10
      = cmdWord (opField w) (argField w) &&& cmdWord 0b11#2 0x00#8 := by rw [cmdWord_opField_argField, hmask]
    _ = cmdWord (opField w &&& 0b11#2) (argField w &&& 0x00#8) := BitVec.and_append
    _ = cmdWord (opField w) 0x00#8 := by rw [hop, BitVec.and_zero]

/-- Under the mask a word matches the pattern of exactly its own opcode (R42). -/
theorem and_opMask_eq_iff (w : CmdWord) (op : BitVec 2) : w &&& 0x300#10 = cmdWord op 0x00#8 ↔ opField w = op := by
  rw [and_opMask]
  constructor
  · intro h
    simpa using congrArg opField h
  · intro h
    rw [h]

/-! ### The four cases of the decoder -/

theorem decode_of_opField_seed {w : CmdWord} (h : opField w = 0b00#2) : decode w = .seed (argField w) := by
  simp [decode, mnemonicOf, h]

theorem decode_of_opField_next {w : CmdWord} (h : opField w = 0b01#2) : decode w = .next := by
  simp [decode, mnemonicOf, h]

theorem decode_of_opField_ubits {w : CmdWord} (h : opField w = 0b10#2) : decode w = .ubits (argField w) := by
  simp [decode, mnemonicOf, h]

theorem decode_of_opField_sbits {w : CmdWord} (h : opField w = 0b11#2) : decode w = .sbits (argField w) := by
  simp [decode, mnemonicOf, h]

/-- Every word has one of the four opcodes and is its command (R42, R43). -/
theorem decode_cases (w : CmdWord) :
    (opField w = 0b00#2 ∧ decode w = .seed (argField w)) ∨ (opField w = 0b01#2 ∧ decode w = .next) ∨
    (opField w = 0b10#2 ∧ decode w = .ubits (argField w)) ∨ (opField w = 0b11#2 ∧ decode w = .sbits (argField w)) := by
  have hop : ∀ op : BitVec 2, op = 0b00#2 ∨ op = 0b01#2 ∨ op = 0b10#2 ∨ op = 0b11#2 := by decide
  obtain h | h | h | h := hop (opField w)
  · exact .inl ⟨h, decode_of_opField_seed h⟩
  · exact .inr (.inl ⟨h, decode_of_opField_next h⟩)
  · exact .inr (.inr (.inl ⟨h, decode_of_opField_ubits h⟩))
  · exact .inr (.inr (.inr ⟨h, decode_of_opField_sbits h⟩))

theorem decode_eq_next_iff (w : CmdWord) : decode w = .next ↔ opField w = 0b01#2 := by
  refine ⟨fun h => ?_, decode_of_opField_next⟩
  obtain ⟨-, e⟩ | ⟨hop, -⟩ | ⟨-, e⟩ | ⟨-, e⟩ := decode_cases w
  · cases e.symm.trans h
  · exact hop
  · cases e.symm.trans h
  · cases e.symm.trans h

/-- The operand of a decoded command is the operand field (R40). -/
theorem eq_argField_of_decode {w : CmdWord} {v : Byte}
    (h : decode w = .seed v ∨ decode w = .ubits v ∨ decode w = .sbits v) : v = argField w := by
  obtain ⟨-, e⟩ | ⟨-, e⟩ | ⟨-, e⟩ | ⟨-, e⟩ := decode_cases w <;> simp only [e] at h
  · simpa [eq_comm] using h
  · simp at h
  · simpa [eq_comm] using h
  · simpa [eq_comm] using h

end Sys2Proof
end

section
/-! The encoding's obligations that say how a word is decoded (R40, R42, R44). -/
namespace Sys2Proof.Machine

theorem step_of_command (s : State) (w : CmdWord) (rest : List HostEvent) (h : s.host = .command w :: rest) :
    step s = exec (decode w) (s.awaiting rest) := by simp [step, h]

/-- Settles O2: the mask keeps the opcode field, so a pattern matches exactly where its opcode stands there, and the
four opcodes are all there are. -/
theorem decodeByOpcodeBits : Obligations.DecodeByOpcodeBits := by
  unfold Obligations.DecodeByOpcodeBits
  intro w
  have hmatch := and_opMask_eq_iff w
  refine ⟨⟨hmatch 0b00#2, hmatch 0b01#2, hmatch 0b10#2, hmatch 0b11#2⟩,
    fun h => decode_of_opField_seed ((hmatch 0b00#2).mp h), fun h => decode_of_opField_next ((hmatch 0b01#2).mp h),
    fun h => decode_of_opField_ubits ((hmatch 0b10#2).mp h), fun h => decode_of_opField_sbits ((hmatch 0b11#2).mp h), ?_⟩
  have hone : ∀ op : BitVec 2,
      [0x000#10, 0x100#10, 0x200#10, 0x300#10].countP (fun m => cmdWord op 0x00#8 == m) = 1 := by decide
  rw [and_opMask]
  exact hone (opField w)

/-- Settles O3: NEXT is the opcode 01, which is the quotient 1 of the word by 256; a step sees of a word only the
command it decodes to. -/
theorem nextIgnoresOperandField : Obligations.NextIgnoresOperandField := by
  unfold Obligations.NextIgnoresOperandField
  refine ⟨fun w => ?_, fun w s rest h => ?_, rfl⟩
  · have hop : opField w = 0b01#2 ↔ w.toNat / 256 = 1 := by rw [← opField_toNat, BitVec.toNat_eq]; rfl
    rw [decode_eq_next_iff, hop]
    omega
  · have hcanonical : decode 0x100#10 = .next := decode_of_opField_next rfl
    rw [step_of_command _ w rest rfl, step_of_command _ 0x100#10 rest rfl, h, hcanonical]
    rfl

/-- Settles O4: the operand field is the word modulo 256 and is what the decoder hands on; the word of an opcode and a
byte carries that byte. -/
theorem operandIsUnsignedByte : Obligations.OperandIsUnsignedByte := by
  unfold Obligations.OperandIsUnsignedByte
  refine ⟨fun w => ⟨argField_toNat w, fun v => eq_argField_of_decode⟩, fun v => ⟨?_, ?_, ?_⟩, fun n => rfl, rfl⟩
  · exact ⟨cmdWord 0b00#2 v, by simp [decode_of_opField_seed]⟩
  · exact ⟨cmdWord 0b10#2 v, by simp [decode_of_opField_ubits]⟩
  · exact ⟨cmdWord 0b11#2 v, by simp [decode_of_opField_sbits]⟩

end Sys2Proof.Machine
end

section
/-! Steps on which the host presents no command (R48): what they leave of the machine, over any number of them. -/
namespace Sys2Proof.Machine

/-- With nothing presented a run stays where it is (R48). -/
theorem runFor_of_nil (m : Nat) (s : State) (h : s.host = []) : runFor m s = .next s := by
  induction m with
  | zero => rfl
  | succ m ih => rw [runFor_succ_of_next m s s (step_of_nil s h), ih]

/-- A run over `m` events without a command takes them off the list of events and does nothing else (R48). -/
theorem runFor_of_noCommands (m : Nat) (s : State) (rest : List HostEvent) :
    runFor m (s.awaiting (List.replicate m .noCommand ++ rest)) = .next (s.awaiting rest) := by
  induction m with
  | zero => rfl
  | succ m ih => rw [runFor_succ_of_next m _ _ (step_of_noCommand _ _ rfl)]; exact ih

/-- Settles O39, by induction on the number of steps, each of which leaves the machine or takes one event off the list. -/
theorem noCommandChangesNothing : Obligations.NoCommandChangesNothing := by
  unfold Obligations.NoCommandChangesNothing
  exact ⟨runFor_of_nil, runFor_of_noCommands⟩

end Sys2Proof.Machine
end

section
/-! The transform (R49, R50) and its cycle (R54, R55): `XS` is linear over XOR and a bijection, and iterating it runs
through all 255 non-zero bytes before it comes back. -/
namespace Sys2Proof.Machine

/-! ### Linearity and bijectivity -/

/-- A left shift-and-XOR step is linear over XOR (R50). -/
theorem shl8_step_xor (a b : Byte) (k : Nat) :
    (a ^^^ b) ^^^ shl8 (a ^^^ b) k = (a ^^^ shl8 a k) ^^^ (b ^^^ shl8 b k) := by
  simp only [shl8, BitVec.shiftLeft_xor_distrib]
  ac_rfl

/-- A right shift-and-XOR step is linear over XOR (R50). -/
theorem shr8_step_xor (a b : Byte) (k : Nat) :
    (a ^^^ b) ^^^ shr8 (a ^^^ b) k = (a ^^^ shr8 a k) ^^^ (b ^^^ shr8 b k) := by
  simp only [shr8, BitVec.ushiftRight_xor_distrib]
  ac_rfl

/-- The three steps are linear over XOR, and so is the transform, whatever the distances (R50). -/
theorem xs_xor (c : Config) (a b : Byte) : xs c (a ^^^ b) = xs c a ^^^ xs c b := by
  simp only [xs, shl8_step_xor, shr8_step_xor]

theorem xs_hw_injective : Function.Injective (xs Config.hw) :=
  xs_injective Config.hw (by simp) (by simp) (by simp)

/-- Settles O10: each shift-and-XOR step is linear and injective, and an injective map of a finite set to itself is a
bijection. -/
theorem transformProperties : Obligations.TransformProperties := by
  unfold Obligations.TransformProperties
  exact ⟨xs_zero Config.hw, Finite.injective_iff_bijective.mp xs_hw_injective, xs_hw_eq_zero_iff, xs_xor Config.hw⟩

/-! ### The cycle through 0x01 has length 255 -/

/-- Advancing never leads to zero from a non-zero Generator State, however often. -/
@[simp] theorem iterate_xs_hw_eq_zero_iff (n : Nat) (v : Byte) : (xs Config.hw)^[n] v = 0x00#8 ↔ v = 0x00#8 := by
  induction n with
  | zero => rfl
  | succ n ih => rw [Function.iterate_succ_apply', xs_hw_eq_zero_iff, ih]

/-- Every 17th place of the canonical cycle, from 0 to 255: checkpoints, so that no evaluation runs over more than 17
advances. -/
def cycleMarks : List Byte :=
  [0x01#8, 0x9E#8, 0xEF#8, 0x2A#8, 0x2B#8, 0xB5#8, 0x5A#8, 0x70#8, 0x5B#8, 0xEE#8, 0xB4#8, 0xC4#8, 0x9F#8, 0x71#8,
    0xC5#8, 0x01#8]

/-- Seventeen advances lead from each checkpoint to the next. -/
theorem iterate_17_cycleMarks : ∀ k < 15, (xs Config.hw)^[17] (cycleMarks.getD k 0) = cycleMarks.getD (k + 1) 0 := by
  decide

theorem cycleElement_add (j k : Nat) : cycleElement (j + k) = (xs Config.hw)^[k] (cycleElement j) := by
  rw [cycleElement, cycleElement, Nat.add_comm, Function.iterate_add_apply]

theorem cycleElement_17_mul {k : Nat} (hk : k ≤ 15) : cycleElement (17 * k) = cycleMarks.getD k 0 := by
  induction k with
  | zero => rfl
  | succ k ih => rw [Nat.mul_succ, cycleElement_add, ih (by omega), iterate_17_cycleMarks k (by omega)]

/-- The order of the cycle divides 255, and none of the maximal proper divisors 15, 51 and 85 of 255, so it is 255
(R54). -/
theorem minimalPeriod_xs_hw_one : Function.minimalPeriod (xs Config.hw) 0x01#8 = 255 := by
  have hdivisors : ∀ d ∈ Nat.divisors 255, d ∣ 15 ∨ d ∣ 51 ∨ d ∣ 85 ∨ d = 255 := by
    simp [Nat.divisors_ofNat, -Nat.mem_divisors]
  have h255 : Function.minimalPeriod (xs Config.hw) 0x01#8 ∣ 255 :=
    Function.IsPeriodicPt.minimalPeriod_dvd (cycleElement_17_mul (k := 15) (by decide))
  have hnot : ∀ n, cycleElement n ≠ 0x01#8 → ¬ Function.minimalPeriod (xs Config.hw) 0x01#8 ∣ n :=
    fun n hn hdvd => hn (Function.isPeriodicPt_iff_minimalPeriod_dvd.mpr hdvd)
  obtain h | h | h | h := hdivisors _ (Nat.mem_divisors.mpr ⟨h255, by decide⟩)
  · exact absurd h (hnot 15 (by decide))
  · exact absurd h (hnot 51 (by rw [show 51 = 17 * 3 from rfl, cycleElement_17_mul (by decide)]; decide))
  · exact absurd h (hnot 85 (by rw [show 85 = 17 * 5 from rfl, cycleElement_17_mul (by decide)]; decide))
  · exact h

/-! ### Every non-zero byte lies on that cycle -/

/-- The bytes that `m` NEXT commands return from the Generator State `v`: `XS(v)`, `XS(XS(v))`, and so on (R54). -/
def nextBytes (v : Byte) (m : Nat) : List Byte := (List.range m).map fun i => (xs Config.hw)^[i + 1] v

@[simp] theorem nextBytes_zero (v : Byte) : nextBytes v 0 = [] := rfl

@[simp] theorem nextBytes_length (v : Byte) (m : Nat) : (nextBytes v m).length = m := by
  rw [nextBytes, List.length_map, List.length_range]

theorem nextBytes_succ (v : Byte) (m : Nat) : nextBytes v (m + 1) = xs Config.hw v :: nextBytes (xs Config.hw v) m := by
  simp only [nextBytes, List.range_succ_eq_map, List.map_cons, List.map_map, Function.comp_def]
  rfl

/-- The responses that carry those bytes, as the statements write them. -/
theorem map_some_nextBytes (v : Byte) (m : Nat) :
    (nextBytes v m).map some = (List.range m).map fun i => some ((xs Config.hw)^[i + 1] v) := List.map_map

/-- On a cycle of length 255 the first 255 bytes differ: `XS` is injective, and the 255 places before them differ. -/
theorem nextBytes_nodup_of_minimalPeriod {v : Byte} (hv : Function.minimalPeriod (xs Config.hw) v = 255) :
    (nextBytes v 255).Nodup := by
  refine List.Nodup.map_on (fun i hi j hj h => ?_) List.nodup_range
  simp only [Function.iterate_succ_apply'] at h
  rw [List.mem_range, ← hv] at hi hj
  exact (Function.iterate_eq_iterate_iff_of_lt_minimalPeriod hi hj).mp (xs_hw_injective h)

theorem ne_zero_of_mem_nextBytes {v w : Byte} {m : Nat} (hv : v ≠ 0x00#8) (hw : w ∈ nextBytes v m) : w ≠ 0x00#8 := by
  obtain ⟨i, -, rfl⟩ := List.mem_map.mp hw
  exact (iterate_xs_hw_eq_zero_iff _ v).not.mpr hv

/-- Zero and the 255 bytes of a cycle of length 255 are 256 different bytes, so they are all bytes (R54). -/
theorem mem_nextBytes_of_minimalPeriod {v w : Byte} (hv : Function.minimalPeriod (xs Config.hw) v = 255)
    (hv0 : v ≠ 0x00#8) (hw : w ≠ 0x00#8) : w ∈ nextBytes v 255 := by
  have hnodup : (0x00#8 :: nextBytes v 255).Nodup :=
    List.nodup_cons.mpr ⟨fun h => ne_zero_of_mem_nextBytes hv0 h rfl, nextBytes_nodup_of_minimalPeriod hv⟩
  have hall : (0x00#8 :: nextBytes v 255).toFinset = Finset.univ := by
    apply Finset.eq_univ_of_card
    rw [List.toFinset_card_of_nodup hnodup, ← FinEnum.card_eq_fintypeCard, FinEnum.card_bitVec]
    simp
  have hmem : w ∈ (0x00#8 :: nextBytes v 255).toFinset := hall ▸ Finset.mem_univ w
  simpa [hw] using hmem

/-- Every non-zero byte is one of the elements 1 to 255 of the canonical cycle (R55). -/
theorem exists_cycleElement_eq {v : Byte} (hv : v ≠ 0x00#8) : ∃ k, 1 ≤ k ∧ k ≤ 255 ∧ cycleElement k = v := by
  obtain ⟨i, hi, h⟩ := List.mem_map.mp (mem_nextBytes_of_minimalPeriod minimalPeriod_xs_hw_one (by decide) hv)
  exact ⟨i + 1, by omega, List.mem_range.mp hi, h⟩

/-! ### So every non-zero byte is on a cycle of length 255 -/

/-- A byte on the cycle through 0x01 has that cycle's length (R54). -/
theorem minimalPeriod_xs_hw {v : Byte} (hv : v ≠ 0x00#8) : Function.minimalPeriod (xs Config.hw) v = 255 := by
  obtain ⟨k, -, -, rfl⟩ := exists_cycleElement_eq hv
  have hperiodic : 0x01#8 ∈ Function.periodicPts (xs Config.hw) :=
    Function.minimalPeriod_pos_iff_mem_periodicPts.mp (by rw [minimalPeriod_xs_hw_one]; decide)
  rw [cycleElement, Function.minimalPeriod_apply_iterate hperiodic, minimalPeriod_xs_hw_one]

theorem nextBytes_255_nodup {v : Byte} (hv : v ≠ 0x00#8) : (nextBytes v 255).Nodup :=
  nextBytes_nodup_of_minimalPeriod (minimalPeriod_xs_hw hv)

theorem mem_nextBytes_255_iff {v w : Byte} (hv : v ≠ 0x00#8) : w ∈ nextBytes v 255 ↔ w ≠ 0x00#8 :=
  ⟨ne_zero_of_mem_nextBytes hv, mem_nextBytes_of_minimalPeriod (minimalPeriod_xs_hw hv) hv⟩

/-- 255 advances lead back to the same Generator State (R52, R54). -/
theorem iterate_255_xs_hw {v : Byte} (hv : v ≠ 0x00#8) : (xs Config.hw)^[255] v = v :=
  minimalPeriod_xs_hw hv ▸ Function.iterate_minimalPeriod

theorem iterate_add_255_xs_hw {v : Byte} (hv : v ≠ 0x00#8) (n : Nat) :
    (xs Config.hw)^[n + 255] v = (xs Config.hw)^[n] v := by
  rw [Function.iterate_add_apply, iterate_255_xs_hw hv]

end Sys2Proof.Machine
end

section
/-! The State Engine's commands (R51 to R57): what SEED and NEXT do, and the runs made of them. -/
namespace Sys2Proof.Machine

/-! ### One command -/

theorem exec_seed_of_ne_zero {v : Byte} (s : State) (hv : v ≠ 0x00#8) :
    exec (.seed v) s = .next (s.respond ⟨v, s.block.BUF, s.block.CNT⟩ none) :=
  ((execSeed_cases v s).resolve_left fun h => hv h.1).2

theorem exec_next_of_ne_zero {s : State} (hS : s.block.S ≠ 0x00#8) :
    exec .next s =
      .next (s.respond ⟨xs Config.hw s.block.S, s.block.BUF, s.block.CNT⟩ (some (xs Config.hw s.block.S))) :=
  ((execNext_cases s).resolve_left fun h => hS h.1).2

@[simp] theorem decode_encode_seed (v : Byte) : decode (encode (.seed v)) = .seed v := by
  simp [encode, decode_of_opField_seed]

@[simp] theorem decode_encode_next : decode (encode .next) = .next := by
  simp [encode, decode_of_opField_next]

/-- A request advances `S` once if it refills (R54). -/
theorem afterRequest_S (b : Block) (k : Nat) :
    (afterRequest b k).S = (xs Config.hw)^[if b.CNT.val < k then 1 else 0] b.S := by
  by_cases h : b.CNT.val < k
  · simp [h, (afterRequest_of_lt h).1]
  · simp [h, (afterRequest_of_le (Nat.le_of_not_lt h)).1]

theorem advances_of_isRequest {i : Instr} (hi : i.isRequest = true) (b : Block) :
    advances i b = if b.CNT.val < declaredBits i then 1 else 0 := by
  cases i with
  | seed v => cases hi
  | next => cases hi
  | ubits n => rfl
  | sbits n => rfl

/-- Every command but SEED advances `S` as often as its count says: NEXT once, a request for its refill (R54). -/
theorem exec_S {i : Instr} {s t : State} (hi : ∀ v, i ≠ .seed v) (h : exec i s = .next t) :
    t.block.S = (xs Config.hw)^[advances i s.block] s.block.S := by
  cases hreq : i.isRequest with
  | true =>
    obtain ⟨r, rfl, -⟩ := exec_request hreq h
    rw [State.respond_block, afterRequest_S, advances_of_isRequest hreq]
  | false =>
    cases i with
    | seed v => exact absurd rfl (hi v)
    | next =>
      obtain ⟨-, e⟩ | ⟨-, e⟩ := execNext_cases s <;> rw [exec_next, e] at h <;> cases h
      rfl
    | ubits n => cases hreq
    | sbits n => cases hreq

theorem toNat_range_of_ne_zero {v : Byte} (hv : v ≠ 0x00#8) : 1 ≤ v.toNat ∧ v.toNat ≤ 255 :=
  ⟨Nat.pos_of_ne_zero fun h => hv (BitVec.eq_of_toNat_eq h), Nat.le_of_lt_succ v.isLt⟩

/-- The response of NEXT is a non-zero byte, so it is in 1 to 255 (R53). -/
theorem exec_next_response_range {s : State} (hS : s.block.S ≠ 0x00#8) :
    ∃ (t : State) (v : Byte),
      exec .next s = .next t ∧ t.responses = s.responses ++ [some v] ∧ 1 ≤ v.toNat ∧ v.toNat ≤ 255 :=
  ⟨_, xs Config.hw s.block.S, exec_next_of_ne_zero hS, State.respond_responses _ _ _,
    toNat_range_of_ne_zero ((xs_hw_eq_zero_iff _).not.mpr hS)⟩

/-- Settles O14: in a run from reset `S` is never zero, by the invariants. -/
theorem nextResponseRange : Obligations.NextResponseRange := by
  unfold Obligations.NextResponseRange
  refine ⟨fun s => exec_next_response_range, fun es k s h => ?_⟩
  have ⟨_, _, hS⟩ := runsFromResetKeepInvariants.1 es k s h
  exact exec_next_response_range hS

/-- Settles O17: what each of the two answers is built from `S` and the operand, with `BUF` and `CNT` passed on. -/
theorem seedAndNextIgnoreTheBuffer : Obligations.SeedAndNextIgnoreTheBuffer := by
  unfold Obligations.SeedAndNextIgnoreTheBuffer
  rintro i s t (rfl | ⟨v, rfl⟩) h
  · obtain ⟨-, e⟩ | ⟨hS, e⟩ := execNext_cases s <;> rw [exec_next, e] at h <;> cases h
    exact ⟨rfl, rfl, fun buf cnt => exec_next_of_ne_zero hS⟩
  · obtain ⟨-, e⟩ | ⟨hv, e⟩ := execSeed_cases v s <;> rw [exec_seed, e] at h <;> cases h
    exact ⟨rfl, rfl, fun buf cnt => exec_seed_of_ne_zero _ hv⟩

/-- NEXT on a state whose fields are written out, with the transform's value given. -/
theorem exec_next_of_xs_eq {S S' : Byte} (buf : Byte) (cnt : Fin 9) (h : List HostEvent) (rs : List Response)
    (hS : S ≠ 0x00#8) (hxs : xs Config.hw S = S') :
    exec .next ⟨⟨S, buf, cnt⟩, h, rs⟩ = .next ⟨⟨S', buf, cnt⟩, h, rs ++ [some S']⟩ :=
  hxs ▸ exec_next_of_ne_zero hS

/-- Settles O13: the command's effect, the cycle of length 255, and the first two advances from 0x01. -/
theorem nextCommand : Obligations.NextCommand := by
  unfold Obligations.NextCommand
  refine ⟨fun x => by simp [decode_of_opField_next], fun s hS => ?_, fun h rs => ?_⟩
  · exact ⟨exec_next_of_ne_zero hS, (xs_hw_eq_zero_iff _).not.mpr hS, iterate_255_xs_hw hS, iterate_add_255_xs_hw hS 1⟩
  · exact ⟨exec_next_of_xs_eq _ _ h rs (by decide) (by decide), exec_next_of_xs_eq _ _ h rs (by decide) (by decide)⟩

/-! ### Runs of NEXT -/

/-- A program whose first command answers a next state goes on from there. -/
theorem runFor_withProgram_cons_of_next {w : CmdWord} {s u : State} (ws : List CmdWord)
    (h : exec (decode w) s = .next u) :
    runFor (w :: ws).length (s.withProgram (w :: ws)) = runFor ws.length (u.withProgram ws) := by
  obtain ⟨r, eu, he⟩ := exec_of_block_eq (State.awaiting_block s (ws.map .command)).symm h
  have hstep : step (s.withProgram (w :: ws)) = .next ((s.awaiting (ws.map .command)).respond u.block r) :=
    (step_of_command _ w _ rfl).trans he
  rw [List.length_cons, runFor_succ_of_next _ _ _ hstep, eu]
  rfl

/-- A list of NEXT words, one advance and one response each; `BUF` and `CNT` stay (R54). -/
theorem runFor_of_nexts {s : State} (ws : List CmdWord) (hS : s.block.S ≠ 0x00#8) (hw : ∀ w ∈ ws, decode w = .next) :
    runFor ws.length (s.withProgram ws) =
      .next ⟨⟨(xs Config.hw)^[ws.length] s.block.S, s.block.BUF, s.block.CNT⟩, [],
        s.responses ++ (nextBytes s.block.S ws.length).map some⟩ := by
  induction ws generalizing s with
  | nil => simp [State.withProgram]
  | cons w ws ih =>
    obtain ⟨hnext, hws⟩ := List.forall_mem_cons.mp hw
    rw [runFor_withProgram_cons_of_next ws (hnext ▸ exec_next_of_ne_zero hS), ih (by simpa using hS) hws]
    simp [nextBytes_succ]

/-- SEED with a non-zero byte and then `m` NEXT commands: no value, then the bytes after the seed (R51). -/
theorem runFor_seed_nexts {v : Byte} (s : State) (m : Nat) (hv : v ≠ 0x00#8) :
    ∃ t, runFor (m + 1) (s.withProgram (encode (.seed v) :: List.replicate m (encode .next))) = .next t ∧
      t.responses = s.responses ++ none :: (nextBytes v m).map some := by
  have hseed : exec (decode (encode (.seed v))) s = .next (s.respond ⟨v, s.block.BUF, s.block.CNT⟩ none) := by
    rw [decode_encode_seed, exec_seed_of_ne_zero s hv]
  have hnexts : ∀ w ∈ List.replicate m (encode .next), decode w = .next :=
    fun w hw => List.eq_of_mem_replicate hw ▸ decode_encode_next
  have hrun := (runFor_withProgram_cons_of_next _ hseed).trans (runFor_of_nexts _ hv hnexts)
  simp only [List.length_cons, List.length_replicate] at hrun
  exact ⟨_, hrun, by simp⟩

/-- Settles O12: the command's effect, and the run of NEXT commands from the seed. -/
theorem seedCommand : Obligations.SeedCommand := by
  unfold Obligations.SeedCommand
  refine ⟨decode_encode_seed, fun v s => exec_seed_of_ne_zero s, fun s => exec_seed_of_ne_zero s, fun s => rfl,
    fun v s m hv => ?_, fun h rs => rfl⟩
  simpa only [map_some_nextBytes] using runFor_seed_nexts s m hv

/-- Settles O15: runs of NEXT by induction over the list; the 255 bytes by the length of the cycle; the other commands
by their refill; and the ends of the cycle, the last of them from the checkpoint at place 238. -/
theorem permutationProperty : Obligations.PermutationProperty := by
  unfold Obligations.PermutationProperty
  refine ⟨fun s ws hS hw => ?_, fun v hv => ?_, fun i s t => exec_S, by decide, ?_⟩
  · simpa only [map_some_nextBytes] using runFor_of_nexts ws hS hw
  · exact ⟨nextBytes_255_nodup hv, fun w => mem_nextBytes_255_iff hv, iterate_255_xs_hw hv, iterate_add_255_xs_hw hv⟩
  · have hlast : ∀ j, cycleElement (17 * 14 + j) = (xs Config.hw)^[j] 0xC5#8 := fun j => by
      rw [cycleElement_add, cycleElement_17_mul (by decide)]
      rfl
    simp only [show 253 = 17 * 14 + 15 from rfl, show 254 = 17 * 14 + 16 from rfl, show 255 = 17 * 14 + 17 from rfl,
      hlast]
    decide

/-- Settles O16: a seed on the cycle continues the cycle, whose length is 255 and which holds every non-zero byte. -/
theorem seedingRepositions : Obligations.SeedingRepositions := by
  unfold Obligations.SeedingRepositions
  refine ⟨fun s k m _ _ => ?_, iterate_add_255_xs_hw (by decide), fun v => exists_cycleElement_eq⟩
  have hk : cycleElement k ≠ 0x00#8 := (iterate_xs_hw_eq_zero_iff k 0x01#8).not.mpr (by decide)
  have helements : ∀ j, cycleElement (k + 1 + j) = (xs Config.hw)^[j + 1] (cycleElement k) := fun j => by
    rw [Nat.add_right_comm, Nat.add_assoc, cycleElement_add]
  simpa only [map_some_nextBytes, helements] using runFor_seed_nexts s m hk

end Sys2Proof.Machine
end

section
/-! What a request does, command by command: the field of R60 as a value, the block of R63 with its balance of bits, and
when UBITS and SBITS complete (R61 to R70). -/
namespace Sys2Proof.Machine

/-! ### The field of a request -/

/-- The field a request of `k` bits pulls from `b`, the first bit pulled highest (R60, R63). -/
def requestField (b : Block) (k : Nat) : Byte := BitVec.ofNat 8 (fieldValue (requestBit b) k)

theorem pullBits_eq_requestField (b : Block) {k : Nat} (hk : k ≤ 8) :
    pullBits Config.hw k b = (requestField b k, afterRequest b k) := pullBits_eq b k hk

theorem requestField_toNat (b : Block) {k : Nat} (hk : k ≤ 8) :
    (requestField b k).toNat = fieldValue (requestBit b) k := by
  have h2k : 2 ^ k ≤ 2 ^ 8 := Nat.pow_le_pow_right (by decide) hk
  rw [requestField, BitVec.toNat_ofNat, Nat.mod_eq_of_lt ((fieldValue_lt _ k).trans_le h2k)]

theorem requestField_lt (b : Block) {k : Nat} (hk : k ≤ 8) : (requestField b k).toNat < 2 ^ k :=
  requestField_toNat b hk ▸ fieldValue_lt _ k

/-- Bit `j` of the field is the bit pulled `k - 1 - j`-th, and above the field stand zeros (R60). -/
theorem requestField_getLsbD (b : Block) {k : Nat} (hk : k ≤ 8) (j : Nat) :
    (requestField b k).getLsbD j = (decide (j < k) && requestBit b (k - 1 - j)) := by
  rw [BitVec.getLsbD, requestField_toNat b hk, fieldValue_testBit]

/-! ### The block after a request -/

/-- The bits asked for and those left over are the bits buffered, and one byte more if the request refills (R61). -/
theorem afterRequest_CNT_add (b : Block) {k : Nat} (hk : k ≤ 8) :
    (afterRequest b k).CNT.val + k = b.CNT.val + if b.CNT.val < k then 8 else 0 := by
  by_cases h : b.CNT.val < k
  · obtain ⟨-, -, eCNT⟩ := afterRequest_of_lt h
    rw [eCNT, if_pos h]
    omega
  · obtain ⟨-, -, eCNT⟩ := afterRequest_of_le (Nat.le_of_not_lt h)
    rw [eCNT, if_neg h]
    omega

/-- The transform moves every byte but zero: on a cycle of length 255 no byte is a fixed point (R54). -/
theorem xs_hw_ne_self {v : Byte} (hv : v ≠ 0x00#8) : xs Config.hw v ≠ v := by
  intro h
  have hone := Function.minimalPeriod_eq_one_iff_isFixedPt.mpr h
  rw [minimalPeriod_xs_hw hv] at hone
  exact absurd hone (by decide)

/-- A request that completes changes `S` exactly when it refills (R64, R67). -/
theorem afterRequest_S_ne_iff {b : Block} {k : Nat} (h : k ≤ b.CNT.val ∨ b.S ≠ 0x00#8) :
    (afterRequest b k).S ≠ b.S ↔ b.CNT.val < k := by
  by_cases hk : b.CNT.val < k
  · have hS : b.S ≠ 0x00#8 := h.resolve_left (Nat.not_le.mpr hk)
    simp [hk, (afterRequest_of_lt hk).1, xs_hw_ne_self hS]
  · simp [hk, (afterRequest_of_le (Nat.le_of_not_lt hk)).1]

/-! ### When the two commands complete -/

/-- A request of at most 8 bits completes exactly when it needs no refill out of a zero Generator State. -/
theorem dispense_eq_next_iff {k : Nat} {finish : Byte → Byte} {s t : State} (hk : k ≤ 8) :
    dispense k finish s = .next t ↔
      (k ≤ s.block.CNT.val ∨ s.block.S ≠ 0x00#8) ∧
        t = s.respond (afterRequest s.block k) (some (finish (requestField s.block k))) := by
  obtain ⟨hlt, hS, e⟩ | ⟨hc, e⟩ := dispense_cases k finish s
  · rw [e]
    simp [Nat.not_le.mpr hlt, hS]
  · rw [e, pullBits_eq_requestField _ hk]
    rw [Host.Outcome.next.injEq, eq_comm]
    exact (and_iff_right hc).symm

/-- The operands of an invalid request, as numbers. -/
theorem toNat_eq_zero_or_le {n : Byte} {m : Nat} (hn : n = 0x00#8 ∨ m ≤ n.toNat) : n.toNat = 0 ∨ m ≤ n.toNat :=
  hn.imp_left fun h => congrArg BitVec.toNat h

theorem exec_ubits_of_invalid {n : Byte} (s : State) (hn : n = 0x00#8 ∨ 9 ≤ n.toNat) :
    exec (.ubits n) s = .next (s.respond s.block (some 0x00#8)) := by
  have hn := toNat_eq_zero_or_le hn
  exact ((execUbits_cases n s).resolve_right fun ⟨_, _⟩ => by omega).2

theorem exec_sbits_of_invalid {n : Byte} (s : State) (hn : n = 0x00#8 ∨ 8 ≤ n.toNat) :
    exec (.sbits n) s = .next (s.respond s.block (some 0x00#8)) := by
  have hn := toNat_eq_zero_or_le hn
  exact ((execSbits_cases n s).resolve_right fun ⟨_, _⟩ => by omega).2

/-- A valid UBITS that completes answers the field of the next `n` bits (R64). -/
theorem exec_ubits_eq_next_iff {n : Byte} {s t : State} (h1 : 1 ≤ n.toNat) (h8 : n.toNat ≤ 8) :
    exec (.ubits n) s = .next t ↔
      (n.toNat ≤ s.block.CNT.val ∨ s.block.S ≠ 0x00#8) ∧
        t = s.respond (afterRequest s.block n.toNat) (some (requestField s.block n.toNat)) := by
  have e := ((execUbits_cases n s).resolve_left fun ⟨_, _⟩ => by omega).2
  rw [exec_ubits, e]
  exact dispense_eq_next_iff h8

/-- A valid SBITS that completes answers the field of the next `n + 1` bits, sign-extended (R67). -/
theorem exec_sbits_eq_next_iff {n : Byte} {s t : State} (h1 : 1 ≤ n.toNat) (h7 : n.toNat ≤ 7) :
    exec (.sbits n) s = .next t ↔
      (n.toNat + 1 ≤ s.block.CNT.val ∨ s.block.S ≠ 0x00#8) ∧
        t = s.respond (afterRequest s.block (n.toNat + 1))
          (some (sext8 (n.toNat + 1) (requestField s.block (n.toNat + 1)))) := by
  have e := ((execSbits_cases n s).resolve_left fun ⟨_, _⟩ => by omega).2
  rw [exec_sbits, e]
  exact dispense_eq_next_iff (by omega)

theorem declaredBits_ubits_of_invalid {n : Byte} (hn : n = 0x00#8 ∨ 9 ≤ n.toNat) : declaredBits (.ubits n) = 0 := by
  have hn := toNat_eq_zero_or_le hn
  exact if_neg (by omega)

theorem declaredBits_sbits_of_invalid {n : Byte} (hn : n = 0x00#8 ∨ 8 ≤ n.toNat) : declaredBits (.sbits n) = 0 := by
  have hn := toNat_eq_zero_or_le hn
  exact if_neg (by omega)

/-- A request completes, valid or not, unless it has to refill out of a zero Generator State. -/
theorem exists_exec_request {i : Instr} {s : State} (hi : i.isRequest = true)
    (h : declaredBits i ≤ s.block.CNT.val ∨ s.block.S ≠ 0x00#8) : ∃ t, exec i s = .next t := by
  cases i with
  | seed v => cases hi
  | next => cases hi
  | ubits n =>
    obtain ⟨-, e⟩ | ⟨hn, -⟩ := execUbits_cases n s
    · exact ⟨_, e⟩
    · rw [show declaredBits (.ubits n) = n.toNat from if_pos hn] at h
      exact ⟨_, (exec_ubits_eq_next_iff hn.1 hn.2).mpr ⟨h, rfl⟩⟩
  | sbits n =>
    obtain ⟨-, e⟩ | ⟨hn, -⟩ := execSbits_cases n s
    · exact ⟨_, e⟩
    · rw [show declaredBits (.sbits n) = n.toNat + 1 from if_pos hn] at h
      exact ⟨_, (exec_sbits_eq_next_iff hn.1 hn.2).mpr ⟨h, rfl⟩⟩

end Sys2Proof.Machine
end

section
/-! The stale positions of the holding register (R62): a relation between machines, kept by every command and every
step. -/
namespace Sys2Proof.Machine

/-- Two machines equal but for the stale positions of the holding register (R62). -/
structure State.SameLive (s s' : State) : Prop where
  block : s.block.SameLive s'.block
  host : s.host = s'.host
  responses : s.responses = s'.responses

/-- Two outcomes that differ at most in stale positions: next states that do, or the same refusal. -/
inductive OutcomesSameLive : Host.Outcome State Fault Refusal → Host.Outcome State Fault Refusal → Prop
  | next {t t' : State} (h : t.SameLive t') : OutcomesSameLive (.next t) (.next t')
  | refused (r : Refusal) : OutcomesSameLive (.refused r) (.refused r)

theorem Block.SameLive.refl (b : Block) : b.SameLive b := ⟨rfl, rfl, fun _ _ => rfl⟩

theorem State.SameLive.refl (s : State) : s.SameLive s := ⟨Block.SameLive.refl _, rfl, rfl⟩

/-- SEED and NEXT put the same `S` over both buffers (R57). -/
theorem Block.SameLive.withS {b b' : Block} (h : b.SameLive b') (S : Byte) :
    Block.SameLive ⟨S, b.BUF, b.CNT⟩ ⟨S, b'.BUF, b'.CNT⟩ := by
  obtain ⟨-, hCNT, hBUF⟩ := h
  exact ⟨rfl, hCNT, hBUF⟩

/-- A request pulls no stale bit: from the buffer it takes valid bits only (R62, R63). -/
theorem Block.SameLive.requestBit_eq {b b' : Block} (h : b.SameLive b') : requestBit b = requestBit b' := by
  obtain ⟨hS, hCNT, hBUF⟩ := h
  funext i
  by_cases hi : i < b.CNT.val
  · simp [requestBit, ← hCNT, hi, hBUF i hi]
  · simp [requestBit, ← hCNT, hi, hS]

/-- What a request leaves valid was valid before it or is of the fresh byte (R63). -/
theorem Block.SameLive.afterRequest {b b' : Block} (h : b.SameLive b') (k : Nat) :
    (afterRequest b k).SameLive (afterRequest b' k) := by
  obtain ⟨hS, hCNT, hBUF⟩ := h
  by_cases hk : k ≤ b.CNT.val
  · obtain ⟨eS, eBUF, eCNT⟩ := afterRequest_of_le hk
    obtain ⟨eS', eBUF', eCNT'⟩ := afterRequest_of_le (hCNT ▸ hk)
    refine ⟨by rw [eS, eS', hS], Fin.ext (by rw [eCNT, eCNT', hCNT]), fun i hi => ?_⟩
    rw [eCNT] at hi
    rw [eBUF, eBUF', BitVec.getLsbD_ushiftRight, BitVec.getLsbD_ushiftRight, hBUF _ (by omega)]
  · have e : Machine.afterRequest b k = Machine.afterRequest b' k := by
      simp [Machine.afterRequest, ← hCNT, hk, hS]
    exact e ▸ Block.SameLive.refl _

/-- Ending a command with the same response on both sides. -/
theorem State.SameLive.respond {s s' : State} {b b' : Block} (h : s.SameLive s') (hb : b.SameLive b') (r : Response) :
    (s.respond b r).SameLive (s'.respond b' r) :=
  ⟨hb, h.host, congrArg (· ++ [r]) h.responses⟩

theorem State.SameLive.awaiting {s s' : State} (h : s.SameLive s') (rest : List HostEvent) :
    (s.awaiting rest).SameLive (s'.awaiting rest) :=
  ⟨h.block, rfl, h.responses⟩

/-- Serving a request reads no stale bit: the refill test reads `CNT` and `S`, the field only valid bits. -/
theorem dispense_sameLive {s s' : State} {k : Nat} (finish : Byte → Byte) (h : s.SameLive s') (hk : k ≤ 8) :
    OutcomesSameLive (dispense k finish s) (dispense k finish s') := by
  have ⟨hS, hCNT, _⟩ := h.block
  obtain ⟨hlt, hS0, e⟩ | ⟨hc, -⟩ := dispense_cases k finish s
  · obtain ⟨-, -, e'⟩ | ⟨hc', -⟩ := dispense_cases k finish s'
    · rw [e, e']
      exact .refused _
    · rw [← hS, ← hCNT] at hc'
      exact (hc'.elim (Nat.not_le.mpr hlt) (absurd hS0)).elim
  · have hfield : requestField s.block k = requestField s'.block k := by
      simp only [requestField, h.block.requestBit_eq]
    rw [(dispense_eq_next_iff hk).mpr ⟨hc, rfl⟩, (dispense_eq_next_iff hk).mpr ⟨hS ▸ hCNT ▸ hc, rfl⟩, hfield]
    exact .next (h.respond (h.block.afterRequest k) _)

theorem exec_next_of_zero {s : State} (hS : s.block.S = 0x00#8) : exec .next s = .refused .zeroState :=
  ((execNext_cases s).resolve_right fun h => h.1 hS).2

/-- No command reads a stale bit (R62). -/
theorem exec_sameLive (i : Instr) {s s' : State} (h : s.SameLive s') : OutcomesSameLive (exec i s) (exec i s') := by
  have ⟨hS, _, _⟩ := h.block
  cases i with
  | seed v =>
    by_cases hv : v = 0x00#8
    · subst hv
      exact .refused _
    · rw [exec_seed_of_ne_zero s hv, exec_seed_of_ne_zero s' hv]
      exact .next (h.respond (h.block.withS v) none)
  | next =>
    by_cases hS0 : s.block.S = 0x00#8
    · rw [exec_next_of_zero hS0, exec_next_of_zero (hS ▸ hS0)]
      exact .refused _
    · rw [exec_next_of_ne_zero hS0, exec_next_of_ne_zero (hS ▸ hS0), ← hS]
      exact .next (h.respond (h.block.withS _) _)
  | ubits n =>
    obtain ⟨hn, e⟩ | ⟨hn, e⟩ := execUbits_cases n s
    · rw [exec_ubits, exec_ubits, e, ((execUbits_cases n s').resolve_right fun ⟨_, _⟩ => by omega).2]
      exact .next (h.respond h.block _)
    · rw [exec_ubits, exec_ubits, e, ((execUbits_cases n s').resolve_left fun ⟨_, _⟩ => by omega).2]
      exact dispense_sameLive _ h hn.2
  | sbits n =>
    obtain ⟨hn, e⟩ | ⟨hn, e⟩ := execSbits_cases n s
    · rw [exec_sbits, exec_sbits, e, ((execSbits_cases n s').resolve_right fun ⟨_, _⟩ => by omega).2]
      exact .next (h.respond h.block _)
    · rw [exec_sbits, exec_sbits, e, ((execSbits_cases n s').resolve_left fun ⟨_, _⟩ => by omega).2]
      exact dispense_sameLive _ h (by omega)

/-- No step reads a stale bit: the host's event is the same on both sides. -/
theorem step_sameLive {s s' : State} (h : s.SameLive s') : OutcomesSameLive (step s) (step s') := by
  match hh : s.host with
  | [] =>
    rw [step_of_nil s hh, step_of_nil s' (h.host ▸ hh)]
    exact .next h
  | .noCommand :: rest =>
    rw [step_of_noCommand s rest hh, step_of_noCommand s' rest (h.host ▸ hh)]
    exact .next (h.awaiting rest)
  | .reset :: rest =>
    rw [step_of_reset s rest hh, step_of_reset s' rest (h.host ▸ hh)]
    exact .next (State.SameLive.refl _)
  | .command w :: rest =>
    rw [step_of_command s w rest hh, step_of_command s' w rest (h.host ▸ hh)]
    exact exec_sameLive (decode w) (h.awaiting rest)
  | .concurrent w₁ w₂ :: rest =>
    rw [step_of_concurrent s w₁ w₂ rest hh, step_of_concurrent s' w₁ w₂ rest (h.host ▸ hh)]
    exact .refused _

/-- No run of steps reads a stale bit. -/
theorem runFor_sameLive (k : Nat) {s s' : State} (h : s.SameLive s') : OutcomesSameLive (runFor k s) (runFor k s') := by
  induction k generalizing s s' with
  | zero => exact .next h
  | succ k ih =>
    have hstep := step_sameLive h
    generalize e : step s = o, e' : step s' = o' at hstep
    cases hstep with
    | next ht =>
      rw [runFor_succ_of_next k s _ e, runFor_succ_of_next k s' _ e']
      exact ih ht
    | refused r =>
      rw [runFor_succ_of_refused k s r e, runFor_succ_of_refused k s' r e']
      exact .refused r

/-- Settles O27: the relation between the two machines is kept by every step, so by every run. -/
theorem staleBitsUnobservable : Obligations.StaleBitsUnobservable := by
  unfold Obligations.StaleBitsUnobservable
  intro k s s' hblock hhost hresponses
  have hrun := runFor_sameLive k ⟨hblock, hhost, hresponses⟩
  generalize runFor k s = o, runFor k s' = o' at hrun
  cases hrun with
  | next ht =>
    refine ⟨fun t e => ?_, fun r e => by cases e⟩
    cases e
    exact ⟨_, rfl, ht.block, ht.host, ht.responses⟩
  | refused r => exact ⟨fun t e => (by cases e), fun r' e => e⟩

end Sys2Proof.Machine
end

section
/-! Runs of requests: the account of bits over any command list (R71), and the one stream that lists of requests share
(R28, R72). -/
namespace Sys2Proof.Machine

/-! ### The account of bits -/

/-- Every command that completes keeps the account: what it declares and what it leaves buffered are what was buffered,
and 8 bits more if it refills (R61, R71). -/
theorem exec_balance {i : Instr} {s t : State} (h : exec i s = .next t) :
    t.block.CNT.val + declaredBits i = s.block.CNT.val + if s.block.CNT.val < declaredBits i then 8 else 0 := by
  cases hi : i.isRequest with
  | true =>
    obtain ⟨v, rfl, -⟩ := exec_request hi h
    exact afterRequest_CNT_add s.block (declaredBits_le i)
  | false =>
    obtain ⟨hd, S, r, rfl⟩ := exec_not_request hi h
    simp [hd]

theorem refillByte_of_le {i : Instr} {b : Block} (h : declaredBits i ≤ b.CNT.val) : refillByte i b = none :=
  if_neg (Nat.not_lt.mpr h)

theorem refillByte_of_lt {i : Instr} {b : Block} (h : b.CNT.val < declaredBits i) :
    refillByte i b = some (xs Config.hw b.S) := if_pos h

theorem eight_mul_refillByte_length (i : Instr) (b : Block) :
    8 * (refillByte i b).toList.length = if b.CNT.val < declaredBits i then 8 else 0 := by
  by_cases h : b.CNT.val < declaredBits i
  · simp [refillByte_of_lt h, h]
  · simp [refillByte_of_le (Nat.le_of_not_lt h), h]

theorem totalDeclared_cons (i : Instr) (is : List Instr) : totalDeclared (i :: is) = declaredBits i + totalDeclared is :=
  rfl

/-- The account over a command list that completes (R71). -/
theorem runFor_withProgram_balance (ws : List CmdWord) (s t : State)
    (h : runFor ws.length (s.withProgram ws) = .next t) :
    8 * (refillBytes (ws.map decode) s).length + s.block.CNT.val =
      totalDeclared (ws.map decode) + t.block.CNT.val := by
  induction ws generalizing s with
  | nil => cases h; rfl
  | cons w ws ih =>
    obtain ⟨u, hu, ht⟩ := runFor_withProgram_cons h
    have hrest := ih u ht
    have hfirst := exec_balance hu
    rw [List.map_cons, refillBytes_cons_of_next _ hu, List.length_append, Nat.mul_add, eight_mul_refillByte_length,
      totalDeclared_cons]
    omega

/-- Settles O28: each command keeps the account, so every list does, by induction; at reset the buffer is empty; and SEED
and NEXT declare nothing. -/
theorem bitAccounting : Obligations.BitAccounting := by
  unfold Obligations.BitAccounting
  refine ⟨runFor_withProgram_balance, fun ws t h => ?_, fun i s t hi h => ?_⟩
  · have hbalance := runFor_withProgram_balance ws State.reset t h
    rw [State.reset_CNT, Fin.val_zero, Nat.add_zero] at hbalance
    omega
  · obtain ⟨hd, S, r, rfl⟩ := exec_not_request hi h
    exact ⟨hd, refillByte_of_le (by omega), rfl⟩

/-! ### The shared stream -/

/-- The bits a request pulls are the first bits of the stream (R28, R63). -/
theorem requestBit_eq_streamBit {b : Block} {i : Nat} (hi : i < 8) : requestBit b i = streamBit b i := by
  by_cases h : i < b.CNT.val
  · simp [requestBit, streamBit, h]
  · have hdiv : (i - b.CNT.val) / 8 = 0 := by omega
    have hmod : (i - b.CNT.val) % 8 = i - b.CNT.val := by omega
    simp [requestBit, streamBit, h, hdiv, hmod]

/-- After a request of `k` bits the stream goes on at its bit `k`: nothing is lost and nothing doubled (R72). -/
theorem streamBit_afterRequest (b : Block) {k : Nat} (hk : k ≤ 8) (i : Nat) :
    streamBit (afterRequest b k) i = streamBit b (k + i) := by
  by_cases h : k ≤ b.CNT.val
  · obtain ⟨eS, eBUF, eCNT⟩ := afterRequest_of_le h
    have hlt : i < b.CNT.val - k ↔ k + i < b.CNT.val := by omega
    have hsub : i - (b.CNT.val - k) = k + i - b.CNT.val := by omega
    simp [streamBit, eS, eBUF, eCNT, hlt, hsub]
  · obtain ⟨eS, eBUF, eCNT⟩ := afterRequest_of_lt (Nat.lt_of_not_le h)
    have hge : ¬ k + i < b.CNT.val := by omega
    by_cases hi : i < 8 - (k - b.CNT.val)
    · have hdiv : (k + i - b.CNT.val) / 8 = 0 := by omega
      have hmod : (k + i - b.CNT.val) % 8 = k - b.CNT.val + i := by omega
      simp [streamBit, eBUF, eCNT, hge, hi, hdiv, hmod]
    · have hdiv : (k + i - b.CNT.val) / 8 = (i - (8 - (k - b.CNT.val))) / 8 + 1 := by omega
      have hmod : (k + i - b.CNT.val) % 8 = (i - (8 - (k - b.CNT.val))) % 8 := by omega
      simp [streamBit, eS, eCNT, hge, hi, hdiv, hmod]

/-- The first `k + m` bits of the stream are the `k` bits of a request and the first `m` bits after it. -/
theorem map_streamBit_range_add (b : Block) {k : Nat} (hk : k ≤ 8) (m : Nat) :
    (List.range (k + m)).map (streamBit b) =
      (List.range k).map (requestBit b) ++ (List.range m).map (streamBit (afterRequest b k)) := by
  have hfirst : (List.range k).map (requestBit b) = (List.range k).map (streamBit b) :=
    List.map_congr_left fun i hi => requestBit_eq_streamBit ((List.mem_range.mp hi).trans_le hk)
  have hlater : streamBit (afterRequest b k) = streamBit b ∘ (k + ·) := funext (streamBit_afterRequest b hk)
  rw [hfirst, hlater, List.range_add, List.map_append, List.map_map]

/-- A list of requests completes from every non-zero `S`, and its responses carry the first bits of the stream (R72). -/
theorem runFor_of_requests (ws : List CmdWord) (s : State) (hS : s.block.S ≠ 0x00#8)
    (hw : ∀ w ∈ ws, (decode w).isRequest = true) :
    ∃ (t : State) (rs : List Response), runFor ws.length (s.withProgram ws) = .next t ∧
      t.responses = s.responses ++ rs ∧ rs.length = ws.length ∧
      (List.zipWith responseBits (ws.map decode) rs).flatten =
        (List.range (totalDeclared (ws.map decode))).map (streamBit s.block) := by
  induction ws generalizing s with
  | nil => exact ⟨_, [], rfl, by simp [totalDeclared]⟩
  | cons w ws ih =>
    obtain ⟨hreq, hws⟩ := List.forall_mem_cons.mp hw
    obtain ⟨u, hu⟩ := exists_exec_request (s := s) hreq (.inr hS)
    obtain ⟨v, eu, hbits⟩ := exec_request hreq hu
    have hS' : u.block.S ≠ 0x00#8 := by
      rw [eu, State.respond_block, afterRequest_S]
      exact (iterate_xs_hw_eq_zero_iff _ _).not.mpr hS
    obtain ⟨t, rs, hrun, hresponses, hlength, hrest⟩ := ih u hS' hws
    subst eu
    refine ⟨t, some v :: rs, ?_, by simp [hresponses], by simp [hlength], ?_⟩
    · rw [runFor_withProgram_cons_of_next ws hu, hrun]
    · rw [List.map_cons, totalDeclared_cons, map_streamBit_range_add _ (declaredBits_le _), ← hbits]
      exact congrArg (responseBits (decode w) (some v) ++ ·) hrest

/-- Settles O30: lists of requests by induction, each request cutting the stream at its declared consumption; the
scenario by running its three commands from whatever the default seed is. -/
theorem requestsShareOneStream : Obligations.RequestsShareOneStream := by
  unfold Obligations.RequestsShareOneStream
  exact ⟨runFor_of_requests, rfl, by decide⟩

end Sys2Proof.Machine
end

section
/-! The Bit Dispenser's commands one at a time (R61 to R70): `PullBits` in closed form, the whole effect of UBITS and
SBITS, their ranges, what an invalid request leaves, and the refill on demand. -/
namespace Sys2Proof.Machine

/-! ### PullBits -/

/-- Settles O18: the field's bits are the bits pulled in reverse order, and the block is that of R63; within one byte the
bits pulled are consecutive bits of it. -/
theorem pullBitsClosedForm : Obligations.PullBitsClosedForm := by
  unfold Obligations.PullBitsClosedForm
  refine ⟨fun b k _ hk => ?_, fun b y j k i _ hjk hBUF hCNT hi => ?_, fun b hCNT i hi => ?_⟩
  · rw [pullBits_eq_requestField b hk]
    refine ⟨fun i h1 hik => ?_, requestField_lt b hk, afterRequest_of_le, afterRequest_of_lt⟩
    have hlt : k - i < k := by omega
    have hback : k - 1 - (k - i) = i - 1 := by omega
    have hbuffered : i - 1 < b.CNT.val ↔ i ≤ b.CNT.val := by omega
    rw [requestField_getLsbD b hk, hback, requestBit, Nat.sub_right_comm]
    simp [hlt, hbuffered]
  · have hbuffered : k - 1 - i < b.CNT.val := by omega
    rw [pullBits_eq_requestField b (by omega), requestField_getLsbD b (by omega), requestBit, if_pos hbuffered, hBUF]
    simp [hi]
  · have hback : 8 - 1 - (7 - i) = i := by omega
    have hlt : 7 - i < 8 := by omega
    rw [pullBits_eq_requestField b (Nat.le_refl 8), requestField_getLsbD b (Nat.le_refl 8), hback]
    simp [requestBit, hCNT, hlt]

/-! ### The sign -/

/-- The value of a sign-extended field is that of its low `k` bits in two's complement (R6). -/
theorem signed8_sext8 (v : Byte) {k : Nat} (hk : k ≤ 8) : signed8 (sext8 k v) = (v.setWidth k).toInt := by
  rw [signed8, sext8, BitVec.toInt_signExtend_of_le hk]

/-- A field whose top bit is set stands for `2^k` less than as an unsigned number (R67). -/
theorem signed8_sext8_of_lt {v : Byte} {k : Nat} (h1 : 1 ≤ k) (hk : k ≤ 8) (hv : v.toNat < 2 ^ k) :
    signed8 (sext8 k v) = if v.getLsbD (k - 1) then (v.toNat : Int) - 2 ^ k else (v.toNat : Int) := by
  have hmsb : (v.setWidth k).msb = v.getLsbD (k - 1) := by
    rw [BitVec.msb_eq_getLsbD_last, BitVec.getLsbD_setWidth, decide_eq_true (by omega), Bool.true_and]
  have hvalue : (v.setWidth k).toNat = v.toNat := by rw [BitVec.toNat_setWidth, Nat.mod_eq_of_lt hv]
  rw [signed8_sext8 v hk, BitVec.toInt_eq_msb_cond, hmsb, hvalue, Nat.cast_pow, Nat.cast_ofNat]

/-- Above the field sign extension repeats the field's top bit (R6). -/
theorem sext8_getLsbD_of_ge {k j : Nat} (v : Byte) (h1 : 1 ≤ k) (hkj : k ≤ j) (hj : j < 8) :
    (sext8 k v).getLsbD j = v.getLsbD (k - 1) := by
  have htop : k - 1 < k := by omega
  rw [sext8, BitVec.getLsbD_signExtend, if_neg (Nat.not_lt.mpr hkj), BitVec.msb_eq_getLsbD_last,
    BitVec.getLsbD_setWidth]
  simp [hj, htop]

theorem sext8_eight (v : Byte) : sext8 8 v = v := by rw [sext8, BitVec.setWidth_eq, BitVec.signExtend_eq]

/-! ### Valid requests -/

/-- UBITS on a state whose fields are written out, with the block and the field it leads to given. -/
theorem exec_ubits_of_eq {n v : Byte} {b b' : Block} (h : List HostEvent) (rs : List Response)
    (hn : 1 ≤ n.toNat ∧ n.toNat ≤ 8) (hS : b.S ≠ 0x00#8) (hb : afterRequest b n.toNat = b')
    (hv : requestField b n.toNat = v) : exec (.ubits n) ⟨b, h, rs⟩ = .next ⟨b', h, rs ++ [some v]⟩ :=
  (exec_ubits_eq_next_iff hn.1 hn.2).mpr ⟨.inr hS, by rw [hb, hv]; rfl⟩

/-- SBITS on a state whose fields are written out, with the block and the value it leads to given. -/
theorem exec_sbits_of_eq {n v : Byte} {b b' : Block} (h : List HostEvent) (rs : List Response)
    (hn : 1 ≤ n.toNat ∧ n.toNat ≤ 7) (hS : b.S ≠ 0x00#8) (hb : afterRequest b (n.toNat + 1) = b')
    (hv : sext8 (n.toNat + 1) (requestField b (n.toNat + 1)) = v) :
    exec (.sbits n) ⟨b, h, rs⟩ = .next ⟨b', h, rs ++ [some v]⟩ :=
  (exec_sbits_eq_next_iff hn.1 hn.2).mpr ⟨.inr hS, by rw [hb, hv]; rfl⟩

/-- Settles O19: the command's effect, the field's range, the advance of `S` and the balance of bits, each by the lemma
that says it. -/
theorem ubitsCommand : Obligations.UbitsCommand := by
  unfold Obligations.UbitsCommand
  refine ⟨fun n => by simp [decode_of_opField_ubits], fun n s h1 h8 hc => ?_, fun n s => exec_ubits_of_invalid s,
    fun h rs => exec_ubits_of_eq h rs (by decide) (by decide) (by decide) (by decide)⟩
  exact ⟨(exec_ubits_eq_next_iff h1 h8).mpr ⟨hc, rfl⟩, Nat.le_sub_one_of_lt (fieldValue_lt _ _),
    afterRequest_S_ne_iff hc, afterRequest_CNT_add s.block h8⟩

/-- Settles O22: as for UBITS with one bit more, and the value by the field's top bit, which is the first bit pulled. -/
theorem sbitsCommand : Obligations.SbitsCommand := by
  unfold Obligations.SbitsCommand
  refine ⟨fun n => by simp [decode_of_opField_sbits], fun n s h1 h7 hc => ?_, fun n s => exec_sbits_of_invalid s,
    fun h rs => exec_sbits_of_eq h rs (by decide) (by decide) (by decide) (by decide)⟩
  have h8 : n.toNat + 1 ≤ 8 := by omega
  refine ⟨(exec_sbits_eq_next_iff h1 h7).mpr ⟨hc, rfl⟩, ?_, afterRequest_S_ne_iff hc, afterRequest_CNT_add s.block h8⟩
  have hfirst : (requestField s.block (n.toNat + 1)).getLsbD (n.toNat + 1 - 1) = requestBit s.block 0 := by
    rw [requestField_getLsbD s.block h8]
    simp
  have hvalue := signed8_sext8_of_lt (Nat.succ_pos _) h8 (requestField_lt s.block h8)
  rw [hfirst, requestField_toNat s.block h8] at hvalue
  exact hvalue

/-! ### Ranges -/

/-- An empty buffer and a non-zero `S` give a field of 8 bits that is not zero: its bits are all those of `XS(S)` (R65). -/
theorem requestField_eight_ne_zero {b : Block} (hCNT : b.CNT = 0) (hS : b.S ≠ 0x00#8) :
    requestField b 8 ≠ 0x00#8 := by
  intro h
  refine (xs_hw_eq_zero_iff b.S).not.mpr hS (BitVec.eq_of_getLsbD_eq fun i hi => ?_)
  have hback : 8 - 1 - (7 - i) = i := by omega
  have hbit := requestField_getLsbD b (Nat.le_refl 8) (7 - i)
  rw [h, hback, decide_eq_true (by omega), Bool.true_and] at hbit
  simpa [requestBit, hCNT] using hbit.symm

/-- Settles O20: the range is the field's; a field of 8 bits from one fresh byte is not zero; and seven buffered zeros
with the even byte `XS(0x02) = 0x12` behind them give zero. -/
theorem ubitsRange : Obligations.UbitsRange := by
  unfold Obligations.UbitsRange
  refine ⟨fun n s t h1 h8 h => ?_, fun s hCNT hS => ?_, ?_⟩
  · obtain ⟨-, rfl⟩ := (exec_ubits_eq_next_iff h1 h8).mp h
    exact ⟨_, rfl, Nat.le_sub_one_of_lt (requestField_lt s.block h8)⟩
  · exact ⟨_, _, (exec_ubits_eq_next_iff (by decide) (by decide)).mpr ⟨.inr hS, rfl⟩, rfl,
      requestField_eight_ne_zero hCNT hS⟩
  · exact ⟨⟨⟨0x02#8, 0x00#8, 7⟩, [], []⟩, _, by decide, by decide, rfl, rfl⟩

/-- A block that keeps the invariants and whose next 8 bits are given: seven of them buffered, and the eighth the lowest
bit of `XS(S)`, which is 1 for `S = 0x01` and 0 for `S = 0x02`. -/
def blockWithBits (p : Nat → Bool) : Block :=
  ⟨if p 7 then 0x01#8 else 0x02#8, BitVec.ofNat 8 (fieldValue (fun i => p (6 - i)) 7), 7⟩

theorem blockWithBits_BUF_toNat (p : Nat → Bool) :
    (blockWithBits p).BUF.toNat = fieldValue (fun i => p (6 - i)) 7 := by
  have := fieldValue_lt (fun i => p (6 - i)) 7
  exact Nat.mod_eq_of_lt (by omega)

theorem blockWithBits_inv (p : Nat → Bool) : (blockWithBits p).Inv := by
  refine ⟨Nat.le_refl 7, blockWithBits_BUF_toNat p ▸ fieldValue_lt _ 7, ?_⟩
  cases h : p 7 <;> simp [blockWithBits, h]

theorem requestBit_blockWithBits (p : Nat → Bool) {i : Nat} (hi : i < 8) : requestBit (blockWithBits p) i = p i := by
  have hCNT : (blockWithBits p).CNT.val = 7 := rfl
  by_cases h : i < 7
  · have hback : 6 - (7 - 1 - i) = i := by omega
    rw [requestBit, hCNT, if_pos h, BitVec.getLsbD, blockWithBits_BUF_toNat, fieldValue_testBit, hback]
    simp [h]
  · obtain rfl : i = 7 := by omega
    rw [requestBit, hCNT, if_neg h]
    cases h7 : p 7 <;> simp only [blockWithBits, h7] <;> decide

/-- Every value of `k` bits is the field of a request of `k` bits from a block that keeps the invariants. -/
theorem exists_setWidth_requestField_eq {k : Nat} (hk : k ≤ 8) (t : BitVec k) :
    ∃ b : Block, b.Inv ∧ (requestField b k).setWidth k = t := by
  refine ⟨blockWithBits fun i => t.getLsbD (k - 1 - i), blockWithBits_inv _, BitVec.eq_of_getLsbD_eq fun j hj => ?_⟩
  have hback : k - 1 - (k - 1 - j) = j := by omega
  rw [BitVec.getLsbD_setWidth, requestField_getLsbD _ hk, requestBit_blockWithBits _ (by omega), hback]
  simp [hj]

/-- Settles O23: the range is that of `n + 1` bits in two's complement; for each value in it, a block whose next bits are
the value's. -/
theorem sbitsRange : Obligations.SbitsRange := by
  unfold Obligations.SbitsRange
  refine ⟨fun n s t h1 h7 h => ?_, fun n z h1 h7 hlow hhigh => ?_⟩
  · obtain ⟨-, rfl⟩ := (exec_sbits_eq_next_iff h1 h7).mp h
    refine ⟨_, rfl, ?_⟩
    rw [signed8_sext8 _ (by omega)]
    exact ⟨BitVec.le_toInt _, Int.le_sub_one_of_lt BitVec.toInt_lt⟩
  · have h8 : n.toNat + 1 ≤ 8 := by omega
    obtain ⟨b, hinv, hfield⟩ := exists_setWidth_requestField_eq h8 (BitVec.ofInt (n.toNat + 1) z)
    have ⟨_, _, hS⟩ := hinv
    refine ⟨⟨b, [], []⟩, _, _, hinv, (exec_sbits_eq_next_iff h1 h7).mpr ⟨.inr hS, rfl⟩, rfl, ?_⟩
    rw [signed8_sext8 _ h8, hfield]
    exact BitVec.toInt_ofInt_eq_self (Nat.succ_pos _) hlow (Int.lt_of_le_sub_one hhigh)

/-- Settles O24: both pull the same field of `n + 1` bits, which SBITS sign-extends and UBITS does not. -/
theorem sbitsMatchesUbits : Obligations.SbitsMatchesUbits := by
  unfold Obligations.SbitsMatchesUbits
  intro n s t h1 h7 h
  have h8 : n.toNat + 1 ≤ 8 := by omega
  have hn : (n + 1).toNat = n.toNat + 1 := by
    have hlt : n.toNat + 1 < 256 := by omega
    exact Nat.mod_eq_of_lt hlt
  obtain ⟨hc, rfl⟩ := (exec_sbits_eq_next_iff h1 h7).mp h
  have hubits : exec (.ubits (n + 1)) s =
      .next (s.respond (afterRequest s.block (n.toNat + 1)) (some (requestField s.block (n.toNat + 1)))) :=
    (exec_ubits_eq_next_iff (by omega) (by omega)).mpr (by rw [hn]; exact ⟨hc, rfl⟩)
  refine ⟨_, _, _, hubits, rfl, rfl, rfl, rfl, fun i hi => ?_, fun i hni hi => ⟨?_, ?_⟩, fun h => ?_⟩
  · exact sext8_getLsbD_of_lt _ h8 (by omega)
  · rw [sext8_getLsbD_of_ge _ (by omega) (by omega) hi, sext8_getLsbD_of_lt _ h8 (by omega), Nat.add_sub_cancel]
  · rw [requestField_getLsbD _ h8, decide_eq_false (by omega), Bool.false_and]
  · rw [h, sext8_eight]

/-! ### Invalid requests -/

/-- After a command `j` that only answered, the next command behaves as if `j` had never been issued (R66, R70). -/
theorem exec_after_answer_only {i j : Instr} {s t t' : State} {r : Response}
    (hj : exec j s = .next (s.respond s.block r)) (ht : exec j s = .next t) (h : exec i s = .next t') :
    exec i t = .next { t' with responses := s.responses ++ r :: t'.responses.drop s.responses.length } := by
  obtain rfl := Host.Outcome.next.inj (hj.symm.trans ht)
  obtain ⟨r', et, he⟩ := exec_of_block_eq (State.respond_block s s.block r).symm h
  rw [he, et]
  simp [State.respond]

/-- Settles O21: the command only answers, and commands depend on the block alone. -/
theorem invalidUbitsChangesNothing : Obligations.InvalidUbitsChangesNothing := by
  unfold Obligations.InvalidUbitsChangesNothing
  intro n s hn
  have e := exec_ubits_of_invalid s hn
  exact ⟨e, fun i t t' => exec_after_answer_only e⟩

/-- Settles O25: the command only answers, and commands depend on the block alone. -/
theorem invalidSbitsChangesNothing : Obligations.InvalidSbitsChangesNothing := by
  unfold Obligations.InvalidSbitsChangesNothing
  intro n s hn
  have e := exec_sbits_of_invalid s hn
  exact ⟨e, fun i t t' => exec_after_answer_only e⟩

/-! ### The refill on demand -/

theorem declaredBits_of_not_request {i : Instr} (hi : i.isRequest = false) : declaredBits i = 0 := by
  cases i with
  | seed v => rfl
  | next => rfl
  | ubits n => cases hi
  | sbits n => cases hi

/-- A request that refills first pulls every buffered bit (R61). -/
theorem take_requestBits {b : Block} {k : Nat} (h : b.CNT.val ≤ k) :
    ((List.range k).map (requestBit b)).take b.CNT.val = liveBits b := by
  rw [← List.map_take, List.take_range, Nat.min_eq_left h]
  exact List.map_congr_left fun i hi => if_pos (List.mem_range.mp hi)

/-- A command within the buffered bits refills nothing (R61). -/
theorem exec_of_declaredBits_le {i : Instr} {s t : State} (h : exec i s = .next t)
    (hd : declaredBits i ≤ s.block.CNT.val) :
    refillByte i s.block = none ∧ t.block.CNT.val + declaredBits i = s.block.CNT.val ∧
      (i.isRequest = true → t.block.S = s.block.S) := by
  have hnone := refillByte_of_le hd
  refine ⟨hnone, ?_, fun hi => ?_⟩
  · rw [exec_balance h, if_neg (Nat.not_lt.mpr hd), Nat.add_zero]
  · rw [exec_request_S hi h, hnone, Option.getD_none]

/-- A command beyond the buffered bits is a request that refills once, after all of them (R61). -/
theorem exec_of_lt_declaredBits {i : Instr} {s t : State} (h : exec i s = .next t)
    (hd : s.block.CNT.val < declaredBits i) :
    refillByte i s.block = some t.block.S ∧ t.block.S = xs Config.hw s.block.S ∧
      t.block.CNT.val + declaredBits i = s.block.CNT.val + 8 ∧
      ∃ v, t.responses = s.responses ++ [some v] ∧
        (responseBits i (some v)).take s.block.CNT.val = liveBits s.block := by
  have hi : i.isRequest = true := by
    by_contra hi
    have := declaredBits_of_not_request (Bool.eq_false_of_not_eq_true hi)
    omega
  have hsome := refillByte_of_lt hd
  have hS : t.block.S = xs Config.hw s.block.S := by rw [exec_request_S hi h, hsome, Option.getD_some]
  refine ⟨hS ▸ hsome, hS, by rw [exec_balance h, if_pos hd], ?_⟩
  obtain ⟨v, rfl, hbits⟩ := exec_request hi h
  exact ⟨v, rfl, hbits ▸ take_requestBits hd.le⟩

/-- Settles O26: the two cases of a command's need, and the commands that need nothing. -/
theorem refillOnlyOnDemand : Obligations.RefillOnlyOnDemand := by
  unfold Obligations.RefillOnlyOnDemand
  exact ⟨fun i s t h => ⟨exec_of_declaredBits_le h, exec_of_lt_declaredBits h⟩, fun i => declaredBits_of_not_request,
    fun n => ⟨declaredBits_ubits_of_invalid, declaredBits_sbits_of_invalid⟩, rfl⟩

end Sys2Proof.Machine
end

section
/-! The reset state and the first command after it (R87, R88, R90), and what an empty buffer answers: the closed form of
R63 with nothing buffered. -/
namespace Sys2Proof.Machine

/-! ### Reset -/

/-- Settles O40: a step on the reset event is the reset state, and `DEFAULT_SEED`, `RESET_BUF` and `RESET_CNT` are its
registers. -/
theorem resetEventResetsBlock : Obligations.ResetEventResetsBlock := by
  unfold Obligations.ResetEventResetsBlock
  exact ⟨fun s rest h => ⟨_, step_of_reset s rest h, rfl, rfl, rfl⟩, rfl⟩

/-- Settles O43: SEED overwrites the one register that the default seed has reached. -/
theorem seedAfterResetFixesState : Obligations.SeedAfterResetFixesState := by
  unfold Obligations.SeedAfterResetFixesState
  intro v es k hv
  have hstep : step { State.reset with host := .command (encode (.seed v)) :: es } =
      .next ⟨⟨v, 0x00#8, 0⟩, es, [none]⟩ := by
    rw [step_of_command _ _ es rfl, decode_encode_seed, exec_seed_of_ne_zero _ hv]
    rfl
  exact ⟨hstep, runFor_succ_of_next k _ _ hstep⟩

/-! ### A request from an empty buffer -/

/-- With nothing buffered the bits pulled are those of the fresh byte (R63). -/
theorem requestBit_of_empty {b : Block} (hCNT : b.CNT = 0) : requestBit b = (xs Config.hw b.S).getLsbD := by
  funext i
  simp [requestBit, hCNT]

theorem requestField_of_empty {b : Block} (hCNT : b.CNT = 0) (k : Nat) :
    requestField b k = BitVec.ofNat 8 (fieldValue (xs Config.hw b.S).getLsbD k) := by
  rw [requestField, requestBit_of_empty hCNT]

/-- A request from an empty buffer leaves the fresh byte, shifted by the bits taken (R63). -/
theorem afterRequest_of_empty {b : Block} (hCNT : b.CNT = 0) {k : Nat} (h1 : 1 ≤ k) :
    afterRequest b k = ⟨xs Config.hw b.S, shr8 (xs Config.hw b.S) k, Fin.ofNat 9 (8 - k)⟩ := by
  have hzero : b.CNT.val = 0 := congrArg Fin.val hCNT
  obtain ⟨eS, eBUF, eCNT⟩ := afterRequest_of_lt (b := b) (k := k) (by omega)
  rw [hzero, Nat.sub_zero] at eBUF eCNT
  have hofNat : (Fin.ofNat 9 (8 - k)).val = 8 - k := Nat.mod_eq_of_lt (by omega)
  exact Block.ext_val _ _ eS eBUF (eCNT.trans hofNat.symm)

/-- A valid UBITS completes from every non-zero `S` (R64). -/
theorem exec_ubits_of_ne_zero {n : Byte} {s : State} (h1 : 1 ≤ n.toNat) (h8 : n.toNat ≤ 8)
    (hS : s.block.S ≠ 0x00#8) :
    exec (.ubits n) s = .next (s.respond (afterRequest s.block n.toNat) (some (requestField s.block n.toNat))) :=
  (exec_ubits_eq_next_iff h1 h8).mpr ⟨.inr hS, rfl⟩

theorem exec_ubits_of_empty {n : Byte} {s : State} (h1 : 1 ≤ n.toNat) (h8 : n.toNat ≤ 8) (hCNT : s.block.CNT = 0)
    (hS : s.block.S ≠ 0x00#8) :
    exec (.ubits n) s =
      .next (s.respond
        ⟨xs Config.hw s.block.S, shr8 (xs Config.hw s.block.S) n.toNat, Fin.ofNat 9 (8 - n.toNat)⟩
        (some (BitVec.ofNat 8 (fieldValue (xs Config.hw s.block.S).getLsbD n.toNat)))) := by
  rw [← afterRequest_of_empty hCNT h1, ← requestField_of_empty hCNT]
  exact exec_ubits_of_ne_zero h1 h8 hS

theorem exec_sbits_of_empty {n : Byte} {s : State} (h1 : 1 ≤ n.toNat) (h7 : n.toNat ≤ 7) (hCNT : s.block.CNT = 0)
    (hS : s.block.S ≠ 0x00#8) :
    exec (.sbits n) s =
      .next (s.respond
        ⟨xs Config.hw s.block.S, shr8 (xs Config.hw s.block.S) (n.toNat + 1), Fin.ofNat 9 (8 - (n.toNat + 1))⟩
        (some (sext8 (n.toNat + 1)
          (BitVec.ofNat 8 (fieldValue (xs Config.hw s.block.S).getLsbD (n.toNat + 1)))))) := by
  rw [← afterRequest_of_empty hCNT (Nat.succ_pos _), ← requestField_of_empty hCNT]
  exact (exec_sbits_eq_next_iff h1 h7).mpr ⟨.inr hS, rfl⟩

/-- Settles O42: at reset the buffer is empty and `S` is the default seed, which is not zero. -/
theorem usableRightAfterReset : Obligations.UsableRightAfterReset := by
  unfold Obligations.UsableRightAfterReset
  have hS : State.reset.block.S ≠ 0x00#8 := Config.hwDefaultSeed_ne_zero
  exact ⟨exec_next_of_ne_zero hS, fun n h1 h8 => exec_ubits_of_empty h1 h8 rfl hS,
    fun n h1 h7 => exec_sbits_of_empty h1 h7 rfl hS, fun n => ⟨exec_ubits_of_invalid _, exec_sbits_of_invalid _⟩⟩

end Sys2Proof.Machine
end

section
/-! The hazards of one `S` and one buffer shared by all commands (R91 to R93, R95, R97). -/
namespace Sys2Proof.Machine

/-! ### Draining the buffer -/

/-- A request of exactly the buffered bits leaves none, and leaves `S` (R91). -/
theorem afterRequest_CNT_self (b : Block) :
    (afterRequest b b.CNT.val).CNT = 0 ∧ (afterRequest b b.CNT.val).S = b.S := by
  obtain ⟨eS, -, eCNT⟩ := afterRequest_of_le (Nat.le_refl b.CNT.val)
  exact ⟨(fin9_eq_zero_iff _).mpr (by omega), eS⟩

/-- The host's own account of `CNT` (R91): from reset, the consumption declared and the bits buffered make up whole
bytes, and fewer than 8 bits are buffered. -/
theorem CNT_eq_neg_totalDeclared_emod (ws : List CmdWord) (t : State)
    (h : runFor ws.length (State.reset.withProgram ws) = .next t) :
    (t.block.CNT.val : Int) = (-(totalDeclared (ws.map decode) : Int)) % 8 := by
  have hbalance := runFor_withProgram_balance ws State.reset t h
  have ⟨hCNT, _, _⟩ := runFor_keeps State.Inv step_inv ws.length (State.reset.withProgram ws) t State.reset_inv h
  rw [State.reset_CNT, Fin.val_zero, Nat.add_zero] at hbalance
  omega

/-- Settles O44: `UBITS c` takes exactly the buffered bits, so the request after it is one from an empty buffer. -/
theorem drainEmptiesBuffer : Obligations.DrainEmptiesBuffer := by
  unfold Obligations.DrainEmptiesBuffer
  refine ⟨fun s hpos => ?_, CNT_eq_neg_totalDeclared_emod⟩
  have hn : (BitVec.ofNat 8 s.block.CNT.val).toNat = s.block.CNT.val := Nat.mod_eq_of_lt (by omega)
  obtain ⟨hCNT, hS⟩ := afterRequest_CNT_self s.block
  refine ⟨_, (exec_ubits_eq_next_iff (by omega) (by omega)).mpr ⟨.inl hn.le, rfl⟩, ?_⟩
  rw [hn]
  refine ⟨hCNT, hS, fun hne n h1 h8 => ⟨_, exec_ubits_of_empty h1 h8 hCNT (hS.symm ▸ hne), ?_⟩⟩
  simp [hS]

/-! ### A late SEED -/

/-- Read from the top, the field's bits are those of the request in the order pulled (R60). -/
theorem requestField_getLsbD_rev (b : Block) {k i : Nat} (hk : k ≤ 8) (hi : i < k) :
    (requestField b k).getLsbD (k - 1 - i) = requestBit b i := by
  have hlt : k - 1 - i < k := by omega
  have hback : k - 1 - (k - 1 - i) = i := by omega
  rw [requestField_getLsbD b hk, hback, decide_eq_true hlt, Bool.true_and]

/-- Settles O45: SEED replaces `S` and keeps `BUF` and `CNT`, so a request then pulls the bits buffered and those of
`XS(v)`. -/
theorem lateSeedKeepsBufferedBits : Obligations.LateSeedKeepsBufferedBits := by
  unfold Obligations.LateSeedKeepsBufferedBits
  intro v n s t hv h1 h8 h
  obtain rfl := Host.Outcome.next.inj ((exec_seed_of_ne_zero s hv).symm.trans h)
  exact ⟨⟨_, _, exec_ubits_of_ne_zero h1 h8 hv, rfl, fun i => requestField_getLsbD_rev _ h8⟩,
    ⟨_, exec_next_of_ne_zero hv, rfl⟩⟩

/-! ### NEXT among requests -/

/-- A command that completes did not refill out of a zero Generator State. -/
theorem declaredBits_le_or_S_ne_zero {i : Instr} {s t : State} (h : exec i s = .next t) :
    declaredBits i ≤ s.block.CNT.val ∨ s.block.S ≠ 0x00#8 := by
  cases i with
  | seed v => exact .inl (Nat.zero_le _)
  | next => exact .inl (Nat.zero_le _)
  | ubits n =>
    rw [declaredBits]
    split
    next hn => exact ((exec_ubits_eq_next_iff hn.1 hn.2).mp h).1
    next => exact .inl (Nat.zero_le _)
  | sbits n =>
    rw [declaredBits]
    split
    next hn => exact ((exec_sbits_eq_next_iff hn.1 hn.2).mp h).1
    next => exact .inl (Nat.zero_le _)

/-- A command that refills with `y` leaves `y` as the Generator State, and it is not zero (R59, R50). -/
theorem exec_of_refillByte_eq_some {i : Instr} {s t : State} {y : Byte} (hy : refillByte i s.block = some y)
    (h : exec i s = .next t) : t.block.S = y ∧ y ≠ 0x00#8 := by
  have hd : s.block.CNT.val < declaredBits i := by
    by_contra hd
    simp [refillByte_of_le (Nat.le_of_not_lt hd)] at hy
  have hS : s.block.S ≠ 0x00#8 := (declaredBits_le_or_S_ne_zero h).resolve_left (Nat.not_le.mpr hd)
  obtain rfl := eq_xs_of_refillByte_eq_some hy
  obtain ⟨-, eS, -⟩ := exec_of_lt_declaredBits h hd
  exact ⟨eS, (xs_hw_eq_zero_iff _).not.mpr hS⟩

/-- Settles O46: NEXT advances `S` and passes `BUF` and `CNT` on; a refill leaves its byte as `S`, which NEXT then
advances. -/
theorem nextTakesByteFromDispenser : Obligations.NextTakesByteFromDispenser := by
  unfold Obligations.NextTakesByteFromDispenser
  refine ⟨fun s t h => ?_, fun i s t y hy h => ?_⟩
  · obtain ⟨-, e⟩ | ⟨-, e⟩ := execNext_cases s <;> rw [exec_next, e] at h <;> cases h
    exact ⟨rfl, rfl, fun i y => eq_xs_of_refillByte_eq_some⟩
  · obtain ⟨rfl, hne⟩ := exec_of_refillByte_eq_some hy h
    exact ⟨_, exec_next_of_ne_zero hne, rfl⟩

/-! ### UBITS 8 and the other bit order -/

/-- `PullBit` on a buffer that holds a bit, with the most significant bit first (the alternative of D3). -/
theorem pullBit_of_msbFirst {c : Config} {b : Block} (hc : c.pullOrder = .msbFirst) (h : b.CNT ≠ 0) :
    pullBit c b = (b.BUF.getLsbD 7, ⟨b.S, shl8 b.BUF 1, decCnt b.CNT⟩) := by
  rw [pullBit, refillIfEmpty_of_nonempty c b h, takeBit, hc]

/-- Most significant bit first, the top `k` bits of `BUF` enter the accumulator in their own order. -/
theorem pullBitsFrom_getLsbD_of_msbFirst {c : Config} (hc : c.pullOrder = .msbFirst) {k : Nat} (r : Byte) {b : Block}
    (hk : k ≤ b.CNT.val) {i : Nat} (hi : i < 8) :
    (pullBitsFrom c k r b).1.getLsbD i = if i < k then b.BUF.getLsbD (8 - k + i) else r.getLsbD (i - k) := by
  induction k generalizing r b with
  | zero => simp
  | succ k ih =>
    have hne : b.CNT ≠ 0 := (fin9_eq_zero_iff _).not.mpr (by omega)
    have hrest : k ≤ (decCnt b.CNT).val := Nat.le_sub_one_of_lt hk
    rw [pullBitsFrom_succ, pullBit_of_msbFirst hc hne, ih _ hrest]
    obtain hik | rfl | hki := Nat.lt_trichotomy i k
    · have hshifted : 8 - k + i - 1 = 8 - (k + 1) + i := by omega
      have hbyte : 8 - k + i < 8 := by omega
      rw [if_pos hik, if_pos (by omega), shl8_getLsbD, hshifted]
      simp [hbyte, show ¬ 8 - k + i < 1 by omega]
    · have htop : 8 - (i + 1) + i = 7 := by omega
      rw [if_neg (Nat.lt_irrefl i), if_pos (Nat.lt_succ_self i), Nat.sub_self, accumulate_getLsbD _ _ _ (by decide),
        if_pos rfl, htop]
    · rw [if_neg (by omega), if_neg (by omega), accumulate_getLsbD _ _ _ (by omega), if_neg (by omega), Nat.sub_sub]

/-- On an empty buffer `PullBits` of at least one bit is `PullBits` after the refill (R59). -/
theorem pullBits_of_empty (c : Config) {b : Block} (hCNT : b.CNT = 0) (k : Nat) :
    pullBits c (k + 1) b = pullBits c (k + 1) (refill c b) := by
  have hne : (refill c b).CNT ≠ 0 := by simp
  have hpull : pullBit c b = pullBit c (refill c b) := by
    rw [pullBit, pullBit, refillIfEmpty_of_empty c b hCNT, refillIfEmpty_of_nonempty c _ hne]
  rw [pullBits, pullBits, pullBitsFrom_succ, pullBitsFrom_succ, hpull]

/-- Settles O47: the block and the field of a request of 8 bits, from an empty buffer first; and the 8 bits of the fresh
byte pulled from the top down, which put the byte together again. -/
theorem wholeByteRequestIsNotNext : Obligations.WholeByteRequestIsNotNext := by
  unfold Obligations.WholeByteRequestIsNotNext
  refine ⟨fun s hS hCNT => ?_, fun s hS _ => ?_, fun c b hc hCNT => ?_⟩
  · have hblock := afterRequest_of_empty hCNT (k := 8) (by decide)
    refine ⟨_, _, requestField s.block 8, exec_next_of_ne_zero hS, exec_ubits_of_ne_zero (by decide) (by decide) hS, rfl,
      congrArg Block.S hblock, hCNT, congrArg Block.CNT hblock, rfl, rfl, fun i hi => ?_⟩
    exact (requestField_getLsbD_rev _ (Nat.le_refl 8) hi).trans (congrFun (requestBit_of_empty hCNT) i)
  · exact ⟨_, _, exec_ubits_of_ne_zero (by decide) (by decide) hS, rfl,
      fun i => requestField_getLsbD_rev _ (Nat.le_refl 8)⟩
  · refine BitVec.eq_of_getLsbD_eq fun i hi => ?_
    rw [pullBits_of_empty c hCNT, pullBits, pullBitsFrom_getLsbD_of_msbFirst hc _ (Nat.le_refl 8) hi, if_pos hi,
      refill_BUF, Nat.sub_self, Nat.zero_add]

/-! ### The response 0x00 -/

theorem fieldValue_eq_zero_iff (p : Nat → Bool) (k : Nat) : fieldValue p k = 0 ↔ ∀ i, i < k → p i = false := by
  induction k with
  | zero => simp [fieldValue]
  | succ k ih =>
    have hlast : fieldValue p (k + 1) = 0 ↔ fieldValue p k = 0 ∧ p k = false := by simp [fieldValue]
    rw [hlast, ih, Nat.forall_lt_succ_right]

theorem requestField_eq_zero_iff (b : Block) {k : Nat} (hk : k ≤ 8) :
    requestField b k = 0x00#8 ↔ ∀ i, i < k → requestBit b i = false := by
  rw [← fieldValue_eq_zero_iff, ← requestField_toNat b hk, ← BitVec.toNat_inj]
  rfl

/-- Sign extension makes zero of the zero field only: it keeps the field's bits. -/
theorem sext8_requestField_eq_zero_iff (b : Block) {k : Nat} (hk : k ≤ 8) :
    sext8 k (requestField b k) = 0x00#8 ↔ requestField b k = 0x00#8 := by
  constructor
  · intro h
    refine (requestField_eq_zero_iff b hk).mpr fun i hi => ?_
    rw [← requestField_getLsbD_rev b hk hi, ← sext8_getLsbD_of_lt _ hk (by omega), h, BitVec.getLsbD_zero]
  · intro h
    rw [h, sext8, BitVec.setWidth_zero, BitVec.signExtend_eq_setWidth_of_msb_false BitVec.msb_zero,
      BitVec.setWidth_zero]

/-- A request, valid or not, that completes answers 0x00 exactly when all the bits it consumed are 0 (R95). -/
theorem exec_request_answers_zero_iff {i : Instr} {s t : State} (hi : i.isRequest = true) (h : exec i s = .next t) :
    t.responses = s.responses ++ [some 0x00#8] ↔ ∀ j, j < declaredBits i → requestBit s.block j = false := by
  cases i with
  | seed v => cases hi
  | next => cases hi
  | ubits n =>
    obtain ⟨hn, e⟩ | ⟨hn, -⟩ := execUbits_cases n s
    · have hd : declaredBits (.ubits n) = 0 := if_neg (by omega)
      obtain rfl := Host.Outcome.next.inj (e.symm.trans h)
      simp [hd]
    · obtain ⟨-, rfl⟩ := (exec_ubits_eq_next_iff hn.1 hn.2).mp h
      rw [show declaredBits (.ubits n) = n.toNat from if_pos hn, ← requestField_eq_zero_iff s.block hn.2]
      simp
  | sbits n =>
    obtain ⟨hn, e⟩ | ⟨hn, -⟩ := execSbits_cases n s
    · have hd : declaredBits (.sbits n) = 0 := if_neg (by omega)
      obtain rfl := Host.Outcome.next.inj (e.symm.trans h)
      simp [hd]
    · have h8 : n.toNat + 1 ≤ 8 := by omega
      obtain ⟨-, rfl⟩ := (exec_sbits_eq_next_iff hn.1 hn.2).mp h
      rw [show declaredBits (.sbits n) = n.toNat + 1 from if_pos hn, ← requestField_eq_zero_iff s.block h8,
        ← sext8_requestField_eq_zero_iff s.block h8]
      simp

/-- Settles O48: the two requests by the lemma above; the one bit that `UBITS 1` consumes is the first of the stream. -/
theorem zeroResponseIsAmbiguous : Obligations.ZeroResponseIsAmbiguous := by
  unfold Obligations.ZeroResponseIsAmbiguous
  refine ⟨fun n s t => exec_request_answers_zero_iff rfl, fun n s t => exec_request_answers_zero_iff rfl, fun s t h => ?_⟩
  have hone : declaredBits (.ubits 1#8) = 1 := rfl
  rw [exec_request_answers_zero_iff rfl h, hone, ← requestBit_eq_streamBit (by decide)]
  simp

end Sys2Proof.Machine
end

section
/-! Encoding and decoding agree (R39, R42, R44), also on the words of an opcode table (log 11), a step runs the command
its word decodes to (R9), and the pins carry that word (R38). -/
namespace Sys2Proof

/-! ### Commands and words -/

/-- Every command is well formed (R43). -/
@[simp] theorem Instr.wf_eq_true (i : Instr) : i.wf = true := by cases i <;> rfl

/-- Decoding undoes encoding, whatever the operand (R39, R42). -/
@[simp] theorem decode_encode (i : Instr) : decode (encode i) = i := by
  cases i with
  | seed v => simp [encode, decode_of_opField_seed]
  | next => simp [encode, decode_of_opField_next]
  | ubits n => simp [encode, decode_of_opField_ubits]
  | sbits n => simp [encode, decode_of_opField_sbits]

/-- Encoding undoes decoding, but for the operand field of NEXT, which comes back as 0x00 (R44). -/
theorem encode_decode (w : CmdWord) : encode (decode w) = if opField w = 0b01#2 then 0x100#10 else w := by
  have hfields := cmdWord_opField_argField w
  obtain ⟨hop, e⟩ | ⟨hop, e⟩ | ⟨hop, e⟩ | ⟨hop, e⟩ := decode_cases w <;>
    rw [hop] at hfields <;> rw [e, hop, encode]
  · exact hfields
  · rfl
  · exact hfields
  · exact hfields

/-! ### Numbers and table words -/

/-- A number is decoded exactly when it fits 10 bits, and as its word is. -/
theorem decodeNat_eq_ok_iff (v : Nat) (i : Instr) :
    decodeNat v = .ok i ↔ v < 2 ^ 10 ∧ decode (BitVec.ofNat 10 v) = i := by
  by_cases h : v < 2 ^ 10
  · rw [decodeNat, if_pos h, Except.ok.injEq, and_iff_right h]
  · rw [decodeNat, if_neg h]
    exact ⟨fun he => (by cases he), fun ⟨hv, _⟩ => absurd hv h⟩

theorem decodeTableWord_eq_some_iff (nbits w : Nat) (i : Instr) :
    decodeTableWord nbits w = some i ↔ w % 2 ^ nbits < 2 ^ 10 ∧ decode (BitVec.ofNat 10 (w % 2 ^ nbits)) = i := by
  rw [← decodeNat_eq_ok_iff, decodeTableWord]
  cases decodeNat (w % 2 ^ nbits) <;> simp

/-- As a table word of 10 bits, a command word is decoded as it is at the port. -/
theorem decodeTableWord_toNat (w : CmdWord) : decodeTableWord 10 w.toNat = some (decode w) := by
  rw [decodeTableWord_eq_some_iff, Nat.mod_eq_of_lt w.isLt, BitVec.ofNat_toNat, BitVec.setWidth_eq]
  exact ⟨w.isLt, rfl⟩

end Sys2Proof

namespace Sys2Proof.Machine

/-- Settles O1: decoding undoes encoding, also for table words; encoding undoes decoding, NEXT apart; and the numbers
decoded are those below `2 ^ 10`. -/
theorem encodeAndDecodeAgree : Obligations.EncodeAndDecodeAgree := by
  unfold Obligations.EncodeAndDecodeAgree
  refine ⟨fun i => ⟨i.wf_eq_true, decode_encode i, ?_⟩, encode_decode, fun v => ?_⟩
  · rw [decodeTableWord_toNat, decode_encode]
  · simp [decodeNat_eq_ok_iff]

/-- Settles O5, by decoding the eight words. -/
theorem specWordsDecode : Obligations.SpecWordsDecode := by
  unfold Obligations.SpecWordsDecode
  decide

/-- Settles O38: a table word that is decoded is presented as the word of the same command. -/
theorem stepRunsDecodedCommand : Obligations.StepRunsDecodedCommand := by
  unfold Obligations.StepRunsDecodedCommand
  refine ⟨step_of_command, fun s nbits w i h => ?_⟩
  obtain ⟨-, rfl⟩ := (decodeTableWord_eq_some_iff nbits w i).mp h
  exact step_of_command _ _ s.host rfl

/-- Settles O52: the pins case by case, and the fields of the word that `cmd_op` and `cmd_arg` make. -/
theorem pinsCarryTheCommand : Obligations.PinsCarryTheCommand := by
  unfold Obligations.PinsCarryTheCommand
  refine ⟨fun p hrst => ?_, fun p hrst hvalid => ?_, fun p hrst hvalid => ?_, fun k r => ?_⟩
  · simp [InputPins.event, hrst]
  · simp [InputPins.event, hrst, hvalid]
  · exact ⟨cmdWord p.cmdOp p.cmdArg, by simp [InputPins.event, hrst, hvalid], Laws.cmdWord_fields p.cmdOp p.cmdArg⟩
  · cases r with
    | none => exact ⟨rfl, fun v h => by cases h⟩
    | some v => exact ⟨rfl, fun v' h => Option.some.inj h⟩

end Sys2Proof.Machine
end

section
/-! When a command, a step and a run stop (R73, R86, U1, U2), and what a host that keeps its contract can count on. -/
namespace Sys2Proof.Machine

/-! ### Refusals -/

/-- A request of `k` bits is refused exactly when it has to refill out of a zero Generator State (U1; log 5). -/
theorem dispense_eq_refused_iff (k : Nat) (finish : Byte → Byte) (s : State) (r : Refusal) :
    dispense k finish s = .refused r ↔ r = .zeroState ∧ s.block.S = 0x00#8 ∧ s.block.CNT.val < k := by
  obtain ⟨hlt, hS, e⟩ | ⟨hc, e⟩ := dispense_cases k finish s
  · simp [e, hlt, hS, eq_comm]
  · rw [e]
    refine ⟨fun h => (by cases h), fun ⟨_, hS, hlt⟩ => ?_⟩
    exact absurd hS (hc.resolve_left (Nat.not_le.mpr hlt))

/-- A command is refused exactly when it is SEED 0 or would advance a zero Generator State, as NEXT does and a refill
(U1; logs 4, 5). -/
theorem exec_eq_refused_iff (i : Instr) (s : State) (r : Refusal) :
    exec i s = .refused r ↔
      (r = .zeroSeed ∧ i = .seed 0x00#8) ∨
      (r = .zeroState ∧ s.block.S = 0x00#8 ∧ (i = .next ∨ s.block.CNT.val < declaredBits i)) := by
  cases i with
  | seed v =>
    obtain ⟨rfl, e⟩ | ⟨hv, e⟩ := execSeed_cases v s
    · simp [e, declaredBits, eq_comm (a := r)]
    · simp [e, hv, declaredBits]
  | next =>
    obtain ⟨hS, e⟩ | ⟨hS, e⟩ := execNext_cases s
    · simp [e, hS, eq_comm (a := r)]
    · simp [e, hS]
  | ubits n =>
    obtain ⟨hn, e⟩ | ⟨hn, e⟩ := execUbits_cases n s
    · have hd : declaredBits (.ubits n) = 0 := if_neg (by omega)
      simp [e, hd]
    · have hd : declaredBits (.ubits n) = n.toNat := if_pos hn
      simp [e, hd, dispense_eq_refused_iff]
  | sbits n =>
    obtain ⟨hn, e⟩ | ⟨hn, e⟩ := execSbits_cases n s
    · have hd : declaredBits (.sbits n) = 0 := if_neg (by omega)
      simp [e, hd]
    · have hd : declaredBits (.sbits n) = n.toNat + 1 := if_pos hn
      simp [e, hd, dispense_eq_refused_iff]

/-- A step is refused exactly when two hosts present commands at once or the command presented is refused. -/
theorem step_eq_refused_iff (s : State) (r : Refusal) :
    step s = .refused r ↔
      (r = .concurrentAccess ∧ ∃ w₁ w₂ rest, s.host = .concurrent w₁ w₂ :: rest) ∨
      (∃ w rest, s.host = .command w :: rest ∧ exec (decode w) (s.awaiting rest) = .refused r) := by
  match hh : s.host with
  | [] => simp [step_of_nil s hh]
  | .noCommand :: rest => simp [step_of_noCommand s rest hh]
  | .reset :: rest => simp [step_of_reset s rest hh]
  | .command w :: rest => simp [step_of_command s w rest hh]
  | .concurrent w₁ w₂ :: rest => simp [step_of_concurrent s w₁ w₂ rest hh, eq_comm]

/-- Settles O37: the refusals of a step are those of the two lemmas above, and there is no fault to raise. -/
theorem stepStopsExactlyWhen : Obligations.StepStopsExactlyWhen := by
  unfold Obligations.StepStopsExactlyWhen
  intro s
  simp only [ne_eq, step_eq_refused_iff, exec_eq_refused_iff]
  refine ⟨fun f => (nomatch f), by simp, by simp, ?_, by simp⟩
  simp [and_left_comm (b := s.block.S = 0x00#8)]

/-! ### Runs of a host that keeps its contract -/

/-- With a non-zero Generator State every command but SEED 0 completes (R73). -/
theorem exists_exec {i : Instr} {s : State} (hS : s.block.S ≠ 0x00#8) (hi : i ≠ .seed 0x00#8) :
    ∃ t, exec i s = .next t := by
  match h : exec i s with
  | .next t => exact ⟨t, rfl⟩
  | .refused r => simp [exec_eq_refused_iff, hS, hi] at h

theorem exec_host {i : Instr} {s t : State} (h : exec i s = .next t) : t.host = s.host := by
  obtain ⟨r, e⟩ := exec_next_respond i s t h
  rw [e, State.respond_host]

theorem exec_responses_length {i : Instr} {s t : State} (h : exec i s = .next t) :
    t.responses.length = s.responses.length + 1 := by
  obtain ⟨r, e⟩ := exec_next_respond i s t h
  rw [e, State.respond_responses, List.length_append, List.length_singleton]

/-- A host that keeps its contract is never refused, and what it does later keeps the contract too. -/
theorem exists_step_of_hostKeepsContract {s : State} (hS : s.block.S ≠ 0x00#8) (hs : s.hostKeepsContract = true) :
    ∃ t, step s = .next t ∧ t.hostKeepsContract = true := by
  rw [State.hostKeepsContract] at hs
  match hh : s.host with
  | [] => exact ⟨s, step_of_nil s hh, hs⟩
  | e :: rest =>
    rw [hh, List.all_cons, Bool.and_eq_true] at hs
    obtain ⟨he, hrest⟩ := hs
    cases e with
    | noCommand => exact ⟨_, step_of_noCommand s rest hh, hrest⟩
    | reset => exact ⟨_, step_of_reset s rest hh, hrest⟩
    | command w =>
      obtain ⟨t, ht⟩ := exists_exec (s := s.awaiting rest) hS (bne_iff_ne.mp he)
      refine ⟨t, (step_of_command s w rest hh).trans ht, ?_⟩
      rw [State.hostKeepsContract, exec_host ht]
      exact hrest
    | concurrent w₁ w₂ => cases he

/-- Progress over any number of steps (R86). -/
theorem exists_runFor_of_hostKeepsContract (k : Nat) {s : State} (hs : s.Inv) (hc : s.hostKeepsContract = true) :
    ∃ t, runFor k s = .next t ∧ t.Inv ∧ t.hostKeepsContract = true := by
  induction k generalizing s with
  | zero => exact ⟨s, rfl, hs, hc⟩
  | succ k ih =>
    have ⟨_, _, hS⟩ := hs
    obtain ⟨t, ht, hct⟩ := exists_step_of_hostKeepsContract hS hc
    rw [runFor_succ_of_next k s t ht]
    exact ih (step_inv s t hs ht) hct

/-- A command list without SEED 0 is served to its end, with one response for each command (R73). -/
theorem exists_runFor_withProgram (ws : List CmdWord) {s : State} (hs : s.Inv)
    (hw : ∀ w ∈ ws, decode w ≠ .seed 0x00#8) :
    ∃ t, runFor ws.length (s.withProgram ws) = .next t ∧ t.host = [] ∧
      t.responses.length = s.responses.length + ws.length := by
  induction ws generalizing s with
  | nil => exact ⟨_, rfl, rfl, rfl⟩
  | cons w ws ih =>
    obtain ⟨hfirst, hws⟩ := List.forall_mem_cons.mp hw
    have ⟨_, _, hS⟩ := hs
    obtain ⟨u, hu⟩ := exists_exec hS hfirst
    obtain ⟨t, ht, hhost, hlength⟩ := ih (exec_inv hs hu) hws
    refine ⟨t, (runFor_withProgram_cons_of_next ws hu).trans ht, hhost, ?_⟩
    rw [hlength, exec_responses_length hu, List.length_cons]
    omega

/-- Settles O34, by the step lemma for the invariants. -/
theorem stepKeepsInvariants : Obligations.StepKeepsInvariants := step_inv

/-- Settles O36: any number of steps by induction, each of which is not refused; and a command list likewise. -/
theorem contractRunsNeverStop : Obligations.ContractRunsNeverStop := by
  unfold Obligations.ContractRunsNeverStop
  exact ⟨fun k s => exists_runFor_of_hostKeepsContract k, fun ws s => exists_runFor_withProgram ws⟩

end Sys2Proof.Machine
end

section
/-! The reset state, and the run that a reset begins (R23, R24, R87). -/
namespace Sys2Proof.Machine

/-- Settles O32: the reset state's registers, of which the default seed is open but not zero. -/
theorem resetRegisters : Obligations.ResetRegisters := by
  unfold Obligations.ResetRegisters
  exact ⟨rfl, Config.hwDefaultSeed_ne_zero, rfl, rfl, by decide⟩

/-- Settles O33: the invariants of the reset state, whose `S` is not zero and whose buffer is empty. -/
theorem resetKeepsInvariants : Obligations.ResetKeepsInvariants := State.reset_inv

/-- Settles O41: the reset event is one step, to the reset state. -/
theorem resetEventStartsNewRun : Obligations.ResetEventStartsNewRun := by
  unfold Obligations.ResetEventStartsNewRun
  exact fun s rest k h => runFor_succ_of_next k s _ (step_of_reset s rest h)

end Sys2Proof.Machine
end

section
/-! What a command changes and what it depends on (R16, R17, R21, R30). -/
namespace Sys2Proof.Machine

theorem exec_seed_eq_next_iff {v : Byte} {s t : State} :
    exec (.seed v) s = .next t ↔ v ≠ 0x00#8 ∧ t = s.respond ⟨v, s.block.BUF, s.block.CNT⟩ none := by
  obtain ⟨hv, e⟩ | ⟨hv, e⟩ := execSeed_cases v s <;> rw [exec_seed, e] <;> simp [hv, eq_comm]

theorem exec_next_eq_next_iff {s t : State} :
    exec .next s = .next t ↔
      s.block.S ≠ 0x00#8 ∧
        t = s.respond ⟨xs Config.hw s.block.S, s.block.BUF, s.block.CNT⟩ (some (xs Config.hw s.block.S)) := by
  obtain ⟨hS, e⟩ | ⟨hS, e⟩ := execNext_cases s <;> rw [exec_next, e] <;> simp [hS, eq_comm]

/-- The block after a request that completes, valid or not: that of R63 for the bits it declares. -/
theorem exec_request_block {i : Instr} {s t : State} (hi : i.isRequest = true) (h : exec i s = .next t) :
    t.block = afterRequest s.block (declaredBits i) := by
  obtain ⟨v, rfl, -⟩ := exec_request hi h
  rfl

/-! ### The frame -/

/-- The one response a command adds, which is without a value exactly for SEED (R9, R41). -/
theorem exec_response {i : Instr} {s t : State} (h : exec i s = .next t) :
    ∃ r, t.responses = s.responses ++ [r] ∧ (r = none ↔ ∃ v, i = .seed v) := by
  cases i with
  | seed v =>
    obtain ⟨-, rfl⟩ := exec_seed_eq_next_iff.mp h
    exact ⟨none, rfl, by simp⟩
  | next =>
    obtain ⟨-, rfl⟩ := exec_next_eq_next_iff.mp h
    exact ⟨_, rfl, by simp⟩
  | ubits n =>
    obtain ⟨v, rfl, -⟩ := exec_request rfl h
    exact ⟨some v, rfl, by simp⟩
  | sbits n =>
    obtain ⟨v, rfl, -⟩ := exec_request rfl h
    exact ⟨some v, rfl, by simp⟩

/-- What a request leaves of the registers (R17): none changes if it is invalid, `S` only changes if it refills. -/
theorem exec_request_frame {i : Instr} {s t : State} (hi : i.isRequest = true) (h : exec i s = .next t) :
    (declaredBits i = 0 → t.block = s.block) ∧ (declaredBits i ≤ s.block.CNT.val → t.block.S = s.block.S) ∧
      (0 < declaredBits i → t.block = afterRequest s.block (declaredBits i)) := by
  rw [exec_request_block hi h]
  refine ⟨fun hd => ?_, fun hd => (afterRequest_of_le hd).1, fun _ => rfl⟩
  rw [hd, afterRequest_zero]

/-- Settles O49: the host and the response for all commands alike, the block command by command. -/
theorem frameOfEveryCommand : Obligations.FrameOfEveryCommand := by
  unfold Obligations.FrameOfEveryCommand
  intro i s t h
  refine ⟨exec_host h, exec_response h, ?_, ?_, ?_⟩
  · rintro v rfl
    obtain ⟨-, rfl⟩ := exec_seed_eq_next_iff.mp h
    rfl
  · rintro rfl
    obtain ⟨-, rfl⟩ := exec_next_eq_next_iff.mp h
    rfl
  · rintro n (rfl | rfl)
    · exact exec_request_frame rfl h
    · exact exec_request_frame rfl h

/-- Settles O50: the answer of a command that completes depends on the block alone, and so does a refusal. -/
theorem outcomeDependsOnBlockOnly : Obligations.OutcomeDependsOnBlockOnly := by
  unfold Obligations.OutcomeDependsOnBlockOnly
  intro i s s' hb
  refine ⟨fun t h => ?_, fun r h => ?_⟩
  · obtain ⟨r, e, h'⟩ := exec_of_block_eq hb h
    exact ⟨r, congrArg State.responses e, h'⟩
  · rw [exec_eq_refused_iff] at h ⊢
    exact hb ▸ h

/-! ### Idempotency -/

/-- A valid request always leaves another block: without a refill fewer bits, with one another Generator State. -/
theorem afterRequest_ne_self {b : Block} {k : Nat} (hS : b.S ≠ 0x00#8) (h1 : 0 < k) (hk : k ≤ 8) :
    afterRequest b k ≠ b := by
  intro h
  by_cases hlt : b.CNT.val < k
  · exact (afterRequest_S_ne_iff (.inr hS)).mpr hlt (congrArg Block.S h)
  · have hbalance := afterRequest_CNT_add b hk
    rw [h, if_neg hlt] at hbalance
    omega

theorem afterRequest_S_ne_zero {b : Block} (hS : b.S ≠ 0x00#8) (k : Nat) : (afterRequest b k).S ≠ 0x00#8 := by
  rw [afterRequest_S]
  exact (iterate_xs_hw_eq_zero_iff _ _).not.mpr hS

theorem isRequest_of_declaredBits_pos {i : Instr} (h : 0 < declaredBits i) : i.isRequest = true := by
  cases hi : i.isRequest with
  | true => rfl
  | false => exact absurd (declaredBits_of_not_request hi) h.ne'

/-- Settles O51: SEED stores its operand again, an invalid request leaves each block as it was, and the transform and a
valid request leave no block with a non-zero `S` as it was. -/
theorem idempotency : Obligations.Idempotency := by
  unfold Obligations.Idempotency
  intro i s t u hS ht hu
  refine ⟨?_, fun hi hd => ?_, ?_, fun hd => ?_⟩
  · rintro ⟨v, rfl⟩
    obtain ⟨-, rfl⟩ := exec_seed_eq_next_iff.mp ht
    obtain ⟨-, rfl⟩ := exec_seed_eq_next_iff.mp hu
    rfl
  · have htblock := (exec_request_frame hi ht).1 hd
    exact ⟨htblock, ((exec_request_frame hi hu).1 hd).trans htblock⟩
  · rintro rfl hsame
    obtain ⟨hS', rfl⟩ := exec_next_eq_next_iff.mp hu
    exact xs_hw_ne_self hS' (congrArg Block.S hsame)
  · have hi := isRequest_of_declaredBits_pos hd
    have htS : t.block.S ≠ 0x00#8 := exec_request_block hi ht ▸ afterRequest_S_ne_zero hS _
    rw [exec_request_block hi hu]
    exact afterRequest_ne_self htS hd (declaredBits_le i)

end Sys2Proof.Machine
end

section
/-! The bit operations of R6 and the transform of R49: what the shifts and extensions mean, and the transform bit by bit
and for every legal configuration (D1). -/
namespace Sys2Proof.Machine

/-- Settles O8: the shifts as numbers, the sign extension bit by bit, and two's complement by the value's top bit. -/
theorem shiftsAndExtensions : Obligations.ShiftsAndExtensions := by
  unfold Obligations.ShiftsAndExtensions
  refine ⟨fun v k => ⟨shl8_toNat v k, shr8_toNat v k⟩, fun b => ?_, fun v k i h1 hk hi => ?_, fun v => ?_⟩
  · cases b <;> rfl
  · by_cases hik : i < k
    · rw [if_pos hik, sext8_getLsbD_of_lt v hk hik]
    · rw [if_neg hik, sext8_getLsbD_of_ge v h1 (Nat.le_of_not_lt hik) hi]
  · rw [signed8, BitVec.toInt_eq_toNat_cond]
    split <;> split <;> omega

/-! ### The three steps of the transform, bit by bit -/

/-- A left shift-and-XOR step changes the bits from `k` up (R49). -/
theorem shl8_step_getLsbD (x : Byte) (k : Nat) {i : Nat} (hi : i < 8) :
    (x ^^^ shl8 x k).getLsbD i = if k ≤ i then xor (x.getLsbD i) (x.getLsbD (i - k)) else x.getLsbD i := by
  rw [BitVec.getLsbD_xor, shl8_getLsbD]
  by_cases hki : k ≤ i
  · simp [hi, hki]
  · simp [hki, Nat.lt_of_not_le hki]

/-- A right shift-and-XOR step changes the bits below `8 - k` (R49). -/
theorem shr8_step_getLsbD (x : Byte) (k i : Nat) :
    (x ^^^ shr8 x k).getLsbD i = if i < 8 - k then xor (x.getLsbD i) (x.getLsbD (i + k)) else x.getLsbD i := by
  by_cases hik : i < 8 - k
  · simp [hik, Nat.add_comm]
  · simp [hik, BitVec.getLsbD_of_ge x (k + i) (by omega)]

/-- Settles O9: each of the three cascaded steps, bit by bit. -/
theorem transformBitByBit : Obligations.TransformBitByBit := by
  unfold Obligations.TransformBitByBit
  refine ⟨fun x => ?_, by decide⟩
  intro t1 t2 t3 i hi
  have h1 : ∀ j, j < 8 → (x ^^^ shl8 x 7).getLsbD j = t1 j := fun j hj => by
    rw [shl8_step_getLsbD x 7 hj]
    obtain rfl | hj7 := eq_or_ne j 7
    · rfl
    · simp [t1, hj7, show ¬ 7 ≤ j by omega]
  have h2 : ∀ j, j < 8 → ((x ^^^ shl8 x 7) ^^^ shr8 (x ^^^ shl8 x 7) 5).getLsbD j = t2 j := fun j hj => by
    rw [shr8_step_getLsbD]
    by_cases hj3 : j < 3
    · simp only [t2, hj3, if_true, h1 j hj, h1 (j + 5) (by omega)]
    · simp only [t2, hj3, if_false, h1 j hj]
  have h3 := shl8_step_getLsbD ((x ^^^ shl8 x 7) ^^^ shr8 (x ^^^ shl8 x 7) 5) 3 hi
  rw [h2 i hi, h2 (i - 3) (by omega)] at h3
  exact h3

/-! ### Every legal configuration -/

theorem one_le_distances_of_wf {c : Config} (hc : c.wf = true) : 1 ≤ c.shA ∧ 1 ≤ c.shB ∧ 1 ≤ c.shC := by
  simp only [Config.wf, Config.distancesWf, Bool.and_eq_true, decide_eq_true_eq] at hc
  omega

/-- Settles O11: the transform fixes zero and is injective for all distances from 1 on, and an injective map of a finite
set to itself is a bijection. -/
theorem transformBijectiveForAllDistances : Obligations.TransformBijectiveForAllDistances := by
  unfold Obligations.TransformBijectiveForAllDistances
  intro c hc
  obtain ⟨hA, hB, hC⟩ := one_le_distances_of_wf hc
  exact ⟨xs_zero c, Finite.injective_iff_bijective.mp (xs_injective c hA hB hC)⟩

end Sys2Proof.Machine
end

section
/-! Ranges and counts of a pull for every configuration (D1, D3, D4): the bit taken may differ, the rest does not. -/
namespace Sys2Proof.Machine

@[simp] theorem takeBit_S (c : Config) (b : Block) : (takeBit c b).2.S = b.S := by
  rw [takeBit]
  split <;> rfl

@[simp] theorem takeBit_CNT (c : Config) (b : Block) : (takeBit c b).2.CNT = decCnt b.CNT := by
  rw [takeBit]
  split <;> rfl

/-- Up to the buffered bits, pulling leaves `S` and counts down (R59). -/
theorem pullBitsFrom_of_le (c : Config) {k : Nat} (r : Byte) {b : Block} (hk : k ≤ b.CNT.val) :
    (pullBitsFrom c k r b).2.S = b.S ∧ (pullBitsFrom c k r b).2.CNT.val = b.CNT.val - k := by
  induction k generalizing r b with
  | zero => exact ⟨rfl, rfl⟩
  | succ k ih =>
    have hne : b.CNT ≠ 0 := (fin9_eq_zero_iff _).not.mpr (by omega)
    have hpull : pullBit c b = takeBit c b := by rw [pullBit, refillIfEmpty_of_nonempty c b hne]
    obtain ⟨hS, hCNT⟩ := ih (shl8 r 1 ||| zext8 (pullBit c b).1) (b := (pullBit c b).2)
      (by rw [hpull, takeBit_CNT, decCnt_val]; omega)
    rw [pullBitsFrom_succ, hS, hCNT, hpull, takeBit_S, takeBit_CNT, decCnt_val]
    exact ⟨rfl, by omega⟩

/-- From an empty buffer, pulling up to 8 bits advances `S` once and leaves the rest of 8 bits (R59). -/
theorem pullBitsFrom_of_empty (c : Config) {k : Nat} (r : Byte) {b : Block} (hCNT : b.CNT = 0) (h1 : 1 ≤ k)
    (hk : k ≤ 8) :
    (pullBitsFrom c k r b).2.S = xs c b.S ∧ (pullBitsFrom c k r b).2.CNT.val = 8 - k := by
  obtain ⟨m, rfl⟩ := Nat.exists_eq_succ_of_ne_zero (Nat.ne_of_gt h1)
  have hpull : pullBit c b = pullBit c (refill c b) := by
    rw [pullBit, pullBit, refillIfEmpty_of_empty c b hCNT, refillIfEmpty_of_nonempty c _ (by simp)]
  rw [pullBitsFrom_succ, hpull, ← pullBitsFrom_succ]
  exact pullBitsFrom_of_le c r (b := refill c b) hk

/-- Each bit pulled at most doubles the bound of the accumulator (R60). -/
theorem pullBitsFrom_toNat_lt (c : Config) {m k : Nat} (hk : m + k ≤ 8) {r : Byte} (hr : r.toNat < 2 ^ m) (b : Block) :
    (pullBitsFrom c k r b).1.toNat < 2 ^ (m + k) := by
  induction k generalizing m r b with
  | zero => exact hr
  | succ k ih =>
    have h128 : 2 ^ m ≤ 2 ^ 7 := Nat.pow_le_pow_right (by decide) (by omega)
    have hbit := Bool.toNat_le (pullBit c b).1
    have hr' : (shl8 r 1 ||| zext8 (pullBit c b).1).toNat < 2 ^ (m + 1) := by
      rw [accumulate_toNat r _ (by omega), Nat.pow_succ]
      omega
    rw [pullBitsFrom_succ, ← Nat.succ_add_eq_add_succ]
    exact ih (by omega) hr' _

/-- Settles O31: the field's bound by the accumulator's; `S` and `CNT` within the buffered bits, or beyond them with one
refill after the last. -/
theorem countsIndependentOfConventions : Obligations.CountsIndependentOfConventions := by
  unfold Obligations.CountsIndependentOfConventions
  intro c k b h1 hk
  have hfield : (pullBits c k b).1.toNat < 2 ^ (0 + k) := pullBitsFrom_toNat_lt c (by omega) (by decide) b
  refine ⟨by rwa [Nat.zero_add] at hfield, ?_⟩
  by_cases hlt : b.CNT.val < k
  · obtain ⟨hS, hCNT⟩ := pullBitsFrom_of_le c 0x00#8 (Nat.le_refl b.CNT.val)
    rw [Nat.sub_self] at hCNT
    have hsplit : k = b.CNT.val + (k - b.CNT.val) := by omega
    rw [if_pos hlt, if_pos hlt, pullBits, hsplit, pullBitsFrom_add, ← hsplit]
    obtain ⟨hS', hCNT'⟩ := pullBitsFrom_of_empty c (pullBitsFrom c b.CNT.val 0x00#8 b).1 (k := k - b.CNT.val)
      ((fin9_eq_zero_iff _).mpr hCNT) (by omega) (by omega)
    rw [hS', hS, hCNT']
    exact ⟨rfl, by omega⟩
  · obtain ⟨hS, hCNT⟩ := pullBitsFrom_of_le c 0x00#8 (Nat.le_of_not_lt hlt)
    rw [if_neg hlt, if_neg hlt, pullBits, hS, hCNT]
    exact ⟨rfl, by omega⟩

end Sys2Proof.Machine
end

section
/-! The assembler reads what is printed (R46): comments, words set apart by spaces (log 13), mnemonics and numbers. -/
namespace Sys2Proof.Machine

/-! ### Written commands -/

theorem commandOf_seed_some (v : Nat) :
    commandOf ⟨.seed, some v⟩ = if v ≤ 255 then some (.seed (BitVec.ofNat 8 v)) else none := by
  simp [commandOf, Source.wf]

theorem commandOf_ubits_some (n : Nat) :
    commandOf ⟨.ubits, some n⟩ = if n ≤ 255 then some (.ubits (BitVec.ofNat 8 n)) else none := by
  simp [commandOf, Source.wf]

theorem commandOf_sbits_some (n : Nat) :
    commandOf ⟨.sbits, some n⟩ = if n ≤ 255 then some (.sbits (BitVec.ofNat 8 n)) else none := by
  simp [commandOf, Source.wf]

/-- Settles O7: the operands in and out of range by the three lemmas above, the others by the well-formedness of a written
command. -/
theorem assemblerOperandRange : Obligations.AssemblerOperandRange := by
  unfold Obligations.AssemblerOperandRange
  exact ⟨commandOf_seed_some, commandOf_ubits_some, commandOf_sbits_some, fun v => rfl, rfl, rfl, rfl, rfl⟩

/-! ### Comments and words -/

/-- A character that is part of a word: it neither sets words apart nor starts a comment (log 13). -/
def plainChar (ch : Char) : Bool := ch != ' ' && ch != '\t' && ch != ';'

theorem stripComment_append_comment {line : List Char} (h : ';' ∉ line) (note : List Char) :
    stripComment (line ++ ';' :: note) = line := by
  induction line with
  | nil => rfl
  | cons ch line ih =>
    rw [List.mem_cons, not_or] at h
    obtain ⟨hch, hline⟩ := h
    rw [List.cons_append, stripComment, if_neg (Ne.symm hch), ih hline]

theorem stripComment_of_not_mem {line : List Char} (h : ';' ∉ line) : stripComment line = line := by
  induction line with
  | nil => rfl
  | cons ch line ih =>
    rw [List.mem_cons, not_or] at h
    obtain ⟨hch, hline⟩ := h
    rw [stripComment, if_neg (Ne.symm hch), ih hline]

/-- A space at the end of a line makes no word. -/
theorem splitWords_append_space (word line : List Char) : splitWords word (line ++ [' ']) = splitWords word line := by
  induction line generalizing word with
  | nil => simp [splitWords]
  | cons ch line ih => simp [splitWords, ih]

/-- A word is read to its end. -/
theorem splitWords_append_of_plain (word : List Char) {t : List Char} (ht : t.all plainChar = true) (rest : List Char) :
    splitWords word (t ++ rest) = splitWords (word ++ t) rest := by
  induction t generalizing word with
  | nil => simp
  | cons ch t ih =>
    rw [List.all_cons, Bool.and_eq_true] at ht
    obtain ⟨hch, ht⟩ := ht
    have hword : ¬ (ch = ' ' ∨ ch = '\t') := by
      rintro (rfl | rfl) <;> exact absurd hch (by decide)
    rw [List.cons_append, splitWords, if_neg hword, ih _ ht, List.append_assoc, List.singleton_append]

theorem splitWords_of_plain {m : List Char} (hne : m ≠ []) (hm : m.all plainChar = true) : splitWords [] m = [m] := by
  have h := splitWords_append_of_plain [] hm []
  rw [List.append_nil, List.nil_append] at h
  rw [h, splitWords, if_neg hne]

theorem splitWords_of_two_plain {m a : List Char} (hmne : m ≠ []) (hm : m.all plainChar = true) (hane : a ≠ [])
    (ha : a.all plainChar = true) : splitWords [] (m ++ ' ' :: a) = [m, a] := by
  rw [splitWords_append_of_plain [] hm, List.nil_append, splitWords, if_pos (.inl rfl), if_neg hmne,
    splitWords_of_plain hane ha]

theorem semicolon_not_mem_of_plain {t : List Char} (ht : t.all plainChar = true) : ';' ∉ t :=
  fun h => absurd (List.all_eq_true.mp ht _ h) (by decide)

/-! ### Lines -/

/-- A space and a comment at the end of a line change nothing (R46). -/
theorem assembleLine_append_comment {line : List Char} (h : ';' ∉ line) (note : List Char) :
    assembleLine (line ++ [' ', ';'] ++ note) = assembleLine line := by
  have hstrip : stripComment (line ++ [' ', ';'] ++ note) = line ++ [' '] := by
    have hspace : ';' ∉ line ++ [' '] := by simp [h]
    simpa using stripComment_append_comment hspace note
  rw [assembleLine, assembleLine, hstrip, stripComment_of_not_mem h, splitWords_append_space]

theorem assembleLine_mnemonic {m : List Char} {k : Mnemonic} {i : Instr} (hm : m.all plainChar = true)
    (hk : readMnemonic m = some k) (hi : commandOf ⟨k, none⟩ = some i) : assembleLine m = .ok (some i) := by
  have hne : m ≠ [] := by rintro rfl; cases hk
  simp [assembleLine, stripComment_of_not_mem (semicolon_not_mem_of_plain hm), splitWords_of_plain hne hm, readSource,
    hk, hi]

/-- A mnemonic and a number with one space between them are the command of that number (R46). -/
theorem assembleLine_mnemonic_number {m a : List Char} {k : Mnemonic} {v : Nat} {i : Instr} (hm : m.all plainChar = true)
    (hk : readMnemonic m = some k) (ha : a.all plainChar = true) (hv : readNumber a = some v)
    (hi : commandOf ⟨k, some v⟩ = some i) : assembleLine (m ++ ' ' :: a) = .ok (some i) := by
  have hmne : m ≠ [] := by rintro rfl; cases hk
  have hane : a ≠ [] := by rintro rfl; cases hv
  have hsemi : ';' ∉ m ++ ' ' :: a := by
    simp [semicolon_not_mem_of_plain hm, semicolon_not_mem_of_plain ha]
  simp [assembleLine, stripComment_of_not_mem hsemi, splitWords_of_two_plain hmne hm hane ha, readSource, hk, hv, hi]

/-! ### Printed numbers -/

theorem hexDigit_digitChar : ∀ {d : Nat}, d < 16 → hexDigit (digitChar d) = some d := by decide

theorem decDigit_digitChar : ∀ {d : Nat}, d < 10 → decDigit (digitChar d) = some d := by decide

theorem plainChar_digitChar : ∀ {d : Nat}, d < 16 → plainChar (digitChar d) = true := by decide

theorem digitChar_ne_x : ∀ {d : Nat}, d < 10 → digitChar d ≠ 'x' := by decide

theorem readNumber_printHex (v : Byte) : readNumber (printHex v) = some v.toNat := by
  have hhigh : v.toNat / 16 < 16 := by omega
  have hlow : v.toNat % 16 < 16 := by omega
  simp [printHex, readNumber, readDigits, hexDigit_digitChar hhigh, hexDigit_digitChar hlow, Nat.div_add_mod]

/-- Without an `x` after its first character a number is read as decimal. -/
theorem readNumber_of_decimal {d : Char} {ds : List Char} (h : ds.head? ≠ some 'x') :
    readNumber (d :: ds) = readDigits 10 decDigit 0 (d :: ds) := by
  rw [readNumber.eq_def]
  split
  next e => cases e
  next e => cases e; exact absurd rfl h
  next e => cases e; rfl

/-- The value of decimal digits, after the value `acc` of those before them. -/
def decimalValue (acc : Nat) (ds : List Nat) : Nat := ds.foldl (fun v d => 10 * v + d) acc

theorem readDigits_map_digitChar {ds : List Nat} (hds : ∀ d ∈ ds, d < 10) (acc : Nat) :
    readDigits 10 decDigit acc (ds.map digitChar) = some (decimalValue acc ds) := by
  induction ds generalizing acc with
  | nil => rfl
  | cons d ds ih =>
    obtain ⟨hd, hds⟩ := List.forall_mem_cons.mp hds
    simp only [List.map_cons, readDigits, decDigit_digitChar hd]
    exact ih hds _

/-- A byte is printed as one, two or three decimal digits of its value. -/
theorem exists_printDec_eq (v : Byte) :
    ∃ d ds, printDec v = (d :: ds).map digitChar ∧ (∀ e ∈ d :: ds, e < 10) ∧ decimalValue 0 (d :: ds) = v.toNat := by
  rw [printDec]
  split
  next h => exact ⟨_, [], rfl, by simpa using h, by simp [decimalValue]⟩
  next =>
    split
    next h => exact ⟨_, [_], rfl, by simp; omega, by simp [decimalValue]; omega⟩
    next => exact ⟨_, [_, _], rfl, by simp; omega, by simp [decimalValue]; omega⟩

theorem readNumber_printDec (v : Byte) : readNumber (printDec v) = some v.toNat := by
  obtain ⟨d, ds, hprint, hdigits, hvalue⟩ := exists_printDec_eq v
  have hhead : (ds.map digitChar).head? ≠ some 'x' := by
    cases ds with
    | nil => simp
    | cons e ds => simpa using digitChar_ne_x (hdigits e (by simp))
  rw [hprint, List.map_cons, readNumber_of_decimal hhead, ← List.map_cons, readDigits_map_digitChar hdigits, hvalue]

theorem printHex_plain (v : Byte) : (printHex v).all plainChar = true := by
  have hx : plainChar '0' = true ∧ plainChar 'x' = true := by decide
  have hhigh : v.toNat / 16 < 16 := by omega
  have hlow : v.toNat % 16 < 16 := by omega
  simp [printHex, hx, plainChar_digitChar hhigh, plainChar_digitChar hlow]

theorem printDec_plain (v : Byte) : (printDec v).all plainChar = true := by
  obtain ⟨d, ds, hprint, hdigits, -⟩ := exists_printDec_eq v
  rw [hprint, List.all_map, List.all_eq_true]
  exact fun e he => plainChar_digitChar ((hdigits e he).trans (by decide))

/-! ### Printed commands -/

theorem assembleLine_printInstr (i : Instr) : assembleLine (printInstr i) = .ok (some i) := by
  cases i with
  | seed v =>
    exact assembleLine_mnemonic_number (m := ['S', 'E', 'E', 'D']) (by decide) rfl (printHex_plain v)
      (readNumber_printHex v) (by simp [commandOf_seed_some, Nat.le_of_lt_succ v.isLt])
  | next => exact assembleLine_mnemonic (by decide) rfl rfl
  | ubits n =>
    exact assembleLine_mnemonic_number (m := ['U', 'B', 'I', 'T', 'S']) (by decide) rfl (printDec_plain n)
      (readNumber_printDec n) (by simp [commandOf_ubits_some, Nat.le_of_lt_succ n.isLt])
  | sbits n =>
    exact assembleLine_mnemonic_number (m := ['S', 'B', 'I', 'T', 'S']) (by decide) rfl (printDec_plain n)
      (readNumber_printDec n) (by simp [commandOf_sbits_some, Nat.le_of_lt_succ n.isLt])

/-- No printed command holds the character that starts a comment. -/
theorem semicolon_not_mem_printInstr (i : Instr) : ';' ∉ printInstr i := by
  cases i with
  | seed v => simp [printInstr, semicolon_not_mem_of_plain (printHex_plain v)]
  | next => decide
  | ubits n => simp [printInstr, semicolon_not_mem_of_plain (printDec_plain n)]
  | sbits n => simp [printInstr, semicolon_not_mem_of_plain (printDec_plain n)]

/-- Settles O6: the printed line is a mnemonic and perhaps a number, each read back; and a comment after it changes
nothing. -/
theorem assemblerReadsPrintedCommand : Obligations.AssemblerReadsPrintedCommand := by
  unfold Obligations.AssemblerReadsPrintedCommand
  intro i note
  exact ⟨assembleLine_printInstr i,
    (assembleLine_append_comment (semicolon_not_mem_printInstr i) note).trans (assembleLine_printInstr i)⟩

end Sys2Proof.Machine
end
